-- ==== Sys2Proof/Word.lean ====
section
/-! DEFINITION. The block's data types (30_encoding.md R33 to R37, R39) and the plainest facts of their shape. -/

namespace Sys2Proof

/-- A slider's 12 segments, bit k for segment k, 0 = touched (R33). -/
abbrev RawWord := BitVec 12

/-- An 8-bit unsigned axis coordinate (R35). -/
abbrev AxisValue := BitVec 8

/-- One bit for each of the eight LEDs, 1 = lit (R36). -/
abbrev LedMask := BitVec 8

/-- The 4-bit code in which a function's input word carries a SliderIndex (R34): 0 to 11 a contact,
15 no contact, 12 to 14 reserved. -/
abbrev IndexCode := BitVec 4

/-- The abstract SliderIndex (R34): `some k` is a contact at segment k of 0..11, `none` is the −1 of
"no contact" (`NONE`, R8). It has no reserved value. -/
abbrev SliderIndex := Option (Fin 12)

/-- The 28-bit packing of one step's inputs (R39). -/
abbrev StepWord := BitVec 28

/-- A report or the PreviousReport: the ordered pair (x, y), x horizontal and y vertical (R37). -/
structure Report where
  x : AxisValue
  y : AxisValue
  deriving DecidableEq, Repr

end Sys2Proof
end

