-- ==== Sys2Proof/Syntax.lean ====
section
/-! DEFINITION. The operations and functions of spec/opcode_table.json (30_encoding.md R40, R41), one constructor a
row, and the input words they are read from. -/

namespace Sys2Proof

/-- One constructor for each row of spec/opcode_table.json. The four operations carry the step inputs they look
at (R40). The eight functions carry the operands of their input word (R41), a SliderIndex as its 4-bit code. -/
inductive Instr where
  /-- `RESET` (45_poll.md R79); ignores every other input. -/
  | reset
  /-- `IDLE` (R80); ignores every input. -/
  | idle
  /-- `POLL.TEST` (R82): a poll in LED test feedback mode; ignores `tx_ready`. -/
  | pollTest (vRaw hRaw : RawWord)
  /-- `POLL.RPT` (R83): a poll in USB reporting mode. -/
  | pollRpt (vRaw hRaw : RawWord) (txReady : Bool)
  /-- `DECODE` (40_position_decoder.md R48). -/
  | decode (raw : RawWord)
  /-- `ORIENT` (R50): the orientation constant and an index. -/
  | orient (o : Bool) (idx : IndexCode)
  /-- `AXISMAP` (41_axis_mapper.md R53). -/
  | axismap (idx : IndexCode)
  /-- `DIST` (42_dominant_axis.md R57). -/
  | dist (idx : IndexCode)
  /-- `SELECT` (R58): the vertical and the horizontal index. -/
  | select (vIdx hIdx : IndexCode)
  /-- `LEDMAP` (43_led_encoder.md R63). -/
  | ledmap (idx : IndexCode)
  /-- `CHANGED` (44_report_gate.md R70): the new report and the PreviousReport it is compared with. -/
  | changed (new prev : Report)
  /-- `GATE` (R71): the transport's answer, the new report and the PreviousReport. -/
  | gate (txReady : Bool) (new prev : Report)
  deriving DecidableEq, Repr

/-- A word presented to the block, or to one of its functions alone. No code selects a function (R41): which
function a word belongs to is where it is applied, so each function has an input word of its own, of the width the
table gives it. Log entry 5. -/
inductive InputWord where
  /-- The inputs of one step of the block (R39). -/
  | step (w : StepWord)
  /-- The input word of `DECODE`. -/
  | decode (w : BitVec 12)
  /-- The input word of `ORIENT`. -/
  | orient (w : BitVec 5)
  /-- The input word of `AXISMAP`. -/
  | axismap (w : BitVec 4)
  /-- The input word of `DIST`. -/
  | dist (w : BitVec 4)
  /-- The input word of `SELECT`. -/
  | select (w : BitVec 8)
  /-- The input word of `LEDMAP`. -/
  | ledmap (w : BitVec 4)
  /-- The input word of `CHANGED`. -/
  | changed (w : BitVec 32)
  /-- The input word of `GATE`. -/
  | gate (w : BitVec 33)
  deriving DecidableEq, Repr

/-- Is it the input of a step of the block, and not of one of its functions alone? -/
def InputWord.isStep : InputWord → Bool
  | .step _ => true
  | .decode _ | .orient _ | .axismap _ | .dist _ | .select _ | .ledmap _ | .changed _ | .gate _ => false

/-- The instructions that are one of the four top-level operations of R40. -/
def Instr.isOperation : Instr → Bool
  | .reset | .idle | .pollTest _ _ | .pollRpt _ _ _ => true
  | .decode _ | .orient _ _ | .axismap _ | .dist _ | .select _ _ | .ledmap _ | .changed _ _ | .gate _ _ _ => false

end Sys2Proof
end

