-- ==== Sys2Proof/WellFormed.lean ====
section
/-! DEFINITION. Which instruction terms are well formed: those whose index operands are no reserved code
(30_encoding.md R34, R42). Every other operand is legal at every value (R33, R42, R52). -/

namespace Sys2Proof

/-- The index codes R34 gives a meaning: 0 to 11 and 15. -/
def IndexCode.valid (c : IndexCode) : Bool :=
  decide (c.toNat < 12) || c == 15#4

/-- No index operand holds one of the reserved codes 12, 13 and 14 (R42). -/
def Instr.wellFormed : Instr → Bool
  | .reset | .idle | .pollTest _ _ | .pollRpt _ _ _ => true
  | .decode _ => true
  | .orient _ c => IndexCode.valid c
  | .axismap c => IndexCode.valid c
  | .dist c => IndexCode.valid c
  | .select v h => IndexCode.valid v && IndexCode.valid h
  | .ledmap c => IndexCode.valid c
  | .changed _ _ => true
  | .gate _ _ _ => true

end Sys2Proof
end

