-- ==== Sys2Proof/Decode.lean ====
section
/-! DEFINITION. The decoder: from an input word to the operation or function it stands for, or a rejection by name
(30_encoding.md R39 to R43), and after it the encoder, from the same layouts. -/

namespace Sys2Proof

/-- Why a word is rejected. No step word is: all 16 control nibbles are decoded (R40). -/
inductive Reject where
  /-- A function's input word holds a reserved SliderIndex code, 12, 13 or 14 (R42). -/
  | reservedIndex (code : IndexCode)
  deriving DecidableEq, Repr

/-! The fields of the step word (R39). -/

def StepWord.rst (w : StepWord) : Bool := w.getLsbD 27

def StepWord.poll (w : StepWord) : Bool := w.getLsbD 26

def StepWord.testMode (w : StepWord) : Bool := w.getLsbD 25

def StepWord.txReady (w : StepWord) : Bool := w.getLsbD 24

def StepWord.vRaw (w : StepWord) : RawWord := w.extractLsb' 12 12

def StepWord.hRaw (w : StepWord) : RawWord := w.extractLsb' 0 12

/-- The operation a step word selects (R40): `rst` wins over `poll`, and `test_mode` selects between the two kinds
of poll. Total on all 2^28 words. -/
def decodeStep (w : StepWord) : Instr :=
  match StepWord.rst w, StepWord.poll w, StepWord.testMode w with
  | true, _, _ => .reset
  | false, false, _ => .idle
  | false, true, true => .pollTest (StepWord.vRaw w) (StepWord.hRaw w)
  | false, true, false => .pollRpt (StepWord.vRaw w) (StepWord.hRaw w) (StepWord.txReady w)

/-- A report in the 16 bits that begin at bit `lo`: x in the low byte, y in the high one (R37). -/
def reportAt {n : Nat} (w : BitVec n) (lo : Nat) : Report :=
  { x := w.extractLsb' lo 8, y := w.extractLsb' (lo + 8) 8 }

/-- The fields of an input word by the layout of its row in spec/opcode_table.json, to which R41 refers, reserved codes
not yet looked at. The rows' `encoding` gives each bit: `oiiii` of `ORIENT`, `vvvvhhhh` of `SELECT`, new_y, new_x,
prev_y, prev_x from bit 31 down of `CHANGED`, and `GATE` the same below `tx_ready` at bit 32. -/
def readFields : InputWord → Instr
  | .step w => decodeStep w
  | .decode w => .decode w
  | .orient w => .orient (w.getLsbD 4) (w.extractLsb' 0 4)
  | .axismap w => .axismap w
  | .dist w => .dist w
  | .select w => .select (w.extractLsb' 4 4) (w.extractLsb' 0 4)
  | .ledmap w => .ledmap w
  | .changed w => .changed (reportAt w 16) (reportAt w 0)
  | .gate w => .gate (w.getLsbD 32) (reportAt w 16) (reportAt w 0)

/-- The first reserved index code among an instruction's operands, if there is one (R42). -/
def reservedCode : Instr → Option IndexCode
  | .reset | .idle | .pollTest _ _ | .pollRpt _ _ _ => none
  | .decode _ | .changed _ _ | .gate _ _ _ => none
  | .orient _ c | .axismap c | .dist c | .ledmap c => if IndexCode.valid c then none else some c
  | .select v h =>
    if IndexCode.valid v then (if IndexCode.valid h then none else some h) else some v

/-- The decoder: total, and a reserved index code is rejected by name, never read as a neighbour. -/
def decode (w : InputWord) : Except Reject Instr :=
  match reservedCode (readFields w) with
  | none => .ok (readFields w)
  | some c => .error (.reservedIndex c)

/-- The step word of R39 from its fields. -/
def packStep (rst poll testMode txReady : Bool) (vRaw hRaw : RawWord) : StepWord :=
  BitVec.ofBool rst ++ BitVec.ofBool poll ++ BitVec.ofBool testMode ++ BitVec.ofBool txReady ++ vRaw ++ hRaw

/-- A report as one 16-bit value, `y` above `x` (R37). -/
def packReport (r : Report) : BitVec 16 := r.y ++ r.x

/-- The input word of an instruction. Inputs that an operation ignores take the values R44 gives a field that is
not written: a raw word is `FFF`, any other field 0. -/
def encode : Instr → InputWord
  | .reset => .step (packStep true false false false 0xFFF#12 0xFFF#12)
  | .idle => .step (packStep false false false false 0xFFF#12 0xFFF#12)
  | .pollTest v h => .step (packStep false true true false v h)
  | .pollRpt v h r => .step (packStep false true false r v h)
  | .decode raw => .decode raw
  | .orient o c => .orient (BitVec.ofBool o ++ c)
  | .axismap c => .axismap c
  | .dist c => .dist c
  | .select v h => .select (v ++ h)
  | .ledmap c => .ledmap c
  | .changed n p => .changed (packReport n ++ packReport p)
  | .gate r n p => .gate (BitVec.ofBool r ++ packReport n ++ packReport p)

/-- Which input word a bare table word of `nbits` bits is, when nothing says where it is applied. A width that one
row alone has names that row (`DECODE`, `GATE`), a word of at most 28 bits in 32 is a step word and a wider one
`CHANGED`. Of the five rows that fit in 8 bits only `SELECT` has a bit above bit 4. A narrower word could belong to
any of them, since no code selects a function (R41), and is left undecided. A raw word is cut to its 12 port bits
(R38). Log entry 9. -/
def tableInput (nbits w : Nat) : Option InputWord :=
  if nbits ≤ 8 then
    if 32 ≤ w ∧ w < 2 ^ 8 then some (.select (BitVec.ofNat 8 w)) else none
  else if nbits ≤ 16 then some (.decode (BitVec.ofNat 12 w))
  else if nbits ≤ 32 then
    if w < 2 ^ 28 then some (.step (BitVec.ofNat 28 w))
    else if w < 2 ^ 32 then some (.changed (BitVec.ofNat 32 w)) else none
  else if w < 2 ^ 33 then some (.gate (BitVec.ofNat 33 w)) else none

/-- The instruction the decoder reads from a bare table word. -/
def decodeTableWord (nbits w : Nat) : Option Instr :=
  match tableInput nbits w with
  | none => none
  | some iw => (decode iw).toOption

end Sys2Proof
end

