-- ==== Sys2Proof/Machine/State.lean ====
section
/-! DEFINITION. The state of the block (10_state.md R10, R17), the outputs of its latest step (20_memory.md R21,
45_poll.md R86), the inputs placed for its next steps, and the reasons a step can stop. -/

namespace Sys2Proof.Machine

/-- The event `TrySend(x, y)` of one step with the transport's answer (R9, R71): `tx_valid = 1`. -/
structure TrySend where
  report : Report
  /-- The `tx_ready` of the step: true = accepted, false = rejected. -/
  accepted : Bool
  deriving DecidableEq, Repr

/-- The results of `GATE` (R71): the offer, if one is made, and the next PreviousReport. -/
structure GateResult where
  offer : Option TrySend
  next : Report
  deriving DecidableEq, Repr

/-- The value of one function of R41, evaluated alone. -/
inductive FunctionValue where
  /-- Of `DECODE`, `ORIENT` and `SELECT`. -/
  | index (i : SliderIndex)
  /-- Of `AXISMAP`. -/
  | axis (v : AxisValue)
  /-- Of `DIST`, an integer in 0..6. -/
  | distance (d : Nat)
  /-- Of `LEDMAP`. -/
  | mask (m : LedMask)
  /-- Of `CHANGED`. -/
  | bit (b : Bool)
  /-- Of `GATE`. -/
  | gate (g : GateResult)
  deriving DecidableEq, Repr

/-- What one step shows the outside world. An event that does not happen has no data (R86, D16, D17). -/
structure Outputs where
  /-- `some` when `tx_valid = 1`. -/
  trySend : Option TrySend
  /-- `some m` when `led_we = 1` and `led_mask = m`. -/
  ledWrite : Option LedMask
  /-- The value of a function evaluated alone (log entry 5); `none` after every step of the block. -/
  value : Option FunctionValue
  deriving DecidableEq, Repr

/-- The machine. `prevX` and `prevY` are the block's whole architectural state (R10). `out` records the outputs of
the latest step and is read by nothing in the block (log entry 3). `stimulus` and `draws` stand for the outside
world's inputs (log entries 1 and 2). -/
structure State where
  /-- `prev_x`: x of the last accepted report. -/
  prevX : AxisValue
  /-- `prev_y`: y of the last accepted report. -/
  prevY : AxisValue
  /-- The output ports during the latest step. -/
  out : Outputs
  /-- The input words placed for the next steps, the next one first. -/
  stimulus : List InputWord
  /-- How many input words have been drawn from the outside world. -/
  draws : Nat
  deriving DecidableEq, Repr

/-- No reason: the block has no exception, no fault and no trap (60_exceptions.md R88), so nobody raises one. This
is exact, neither safe nor unsafe. -/
inductive Fault where
  deriving DecidableEq, Repr

/-- Why a step is refused. -/
inductive Refusal where
  /-- Raised by an arm of `exec` that has no meaning yet; there is none. Safe. -/
  | notModelled (mnemonic : String)
  /-- Raised by `step` and by the meanings of `ORIENT`, `AXISMAP`, `DIST`, `SELECT` and `LEDMAP` on a reserved index
  code, as R42 and U1 ask. Safe: no step of the block reaches it. -/
  | reservedIndex (code : IndexCode)
  deriving DecidableEq, Repr

/-- A step with no event: `tx_valid = 0`, `led_we = 0`. -/
def Outputs.quiet : Outputs := { trySend := none, ledWrite := none, value := none }

/-- The machine right after reset (R17): PreviousReport (128, 128) and quiet outputs. Nothing is placed and nothing
has been drawn (log entries 1 and 2). -/
def State.reset : State :=
  { prevX := 128#8, prevY := 128#8, out := Outputs.quiet, stimulus := [], draws := 0 }

end Sys2Proof.Machine
end

