-- ==== Sys2Proof/Machine/Flags.lean ====
section
/-! DEFINITION. The comparison signals of a step (10_state.md R13): the block stores no flag, and none of these
survives the step. -/

namespace Sys2Proof.Machine

/-- `sel_h`: horizontal dominant, a strict unsigned comparison, so that a tie leaves it 0 (42_dominant_axis.md
R58, R59). -/
def selH (dV dH : Nat) : Bool := decide (dH > dV)

/-- `changed`, the function `CHANGED` (44_report_gate.md R70): the pairs differ in either coordinate. -/
def changed (new prev : Report) : Bool := (new.x != prev.x) || (new.y != prev.y)

/-- `accept`: an offer is made and the transport takes it in the same step (R71). -/
def accept (txValid txReady : Bool) : Bool := txValid && txReady

end Sys2Proof.Machine
end

