-- ==== Sys2Proof/Config.lean ====
section
/-! DEFINITION. The open parameters of the block (00_scope.md R6, 10_state.md R18) and the free inputs of a
step (20_memory.md R29). Nothing here is state: no step changes it. -/

namespace Sys2Proof

/-- `LED_IN_REPORT_MODE` of R6: what a reporting-mode poll does to the LED bank (45_poll.md R84). -/
inductive LedPolicy where
  /-- `HOLD`: no LED write. -/
  | hold
  /-- `UPDATE`: the same LED write as a test-mode poll. -/
  | update
  /-- `OFF`: a write of mask 0, the document's `all_leds_off()`. -/
  | off
  deriving DecidableEq, Repr, Inhabited

/-- The three open parameters of R6. The lookup table, which R18 names beside them, is fixed (R5) and stands in
`Sys2Proof.Machine.axisLut`. -/
structure Config where
  /-- `ORIENT_V`: true when the vertical slider's decoded index is complemented. -/
  orientV : Bool
  /-- `ORIENT_H`: the same for the horizontal slider, independent of `orientV`. -/
  orientH : Bool
  /-- `LED_IN_REPORT_MODE`. -/
  ledInReportMode : LedPolicy
  deriving DecidableEq, Repr, Inhabited

/-- The parameters of the block at hand. The spec does not pick them (R6, D5, D7), so nothing can evaluate this
constant and a claim about it holds for all twelve values. Log entry 4. -/
opaque Config.board : Config

/-- The n-th step word that the outside world presents when no input has been placed in the state: every input of a
step is a draw that no rule constrains (R29, R47, R81). Nothing can evaluate it. Log entry 1. -/
opaque Config.drawnStepWord : Nat → StepWord

end Sys2Proof
end

