-- ==== Sys2Proof/Machine/Operands.lean ====
section
/-! DEFINITION. The operand forms: index codes (30_encoding.md R34), the constant table (20_memory.md R20,
41_axis_mapper.md R54), the report as a 16-bit port value (R22), and the output ports of R21 read from the outputs of
a step. -/

namespace Sys2Proof.Machine

/-- The SliderIndex an index code stands for (R34), or the refusal of a reserved code (R42). -/
def readIndex (c : IndexCode) : Except Refusal SliderIndex :=
  if h : c.toNat < 12 then .ok (some ⟨c.toNat, h⟩)
  else if c = 15#4 then .ok none
  else .error (.reservedIndex c)

/-- The code of a SliderIndex (R34). -/
def codeOfIndex : SliderIndex → IndexCode
  | some k => BitVec.ofNat 4 k.val
  | none => 15#4

/-- `AXIS_LUT`, the block's only memory: twelve literals, not computed (R5, R54). -/
def axisLut : Vector AxisValue 12 :=
  #v[0#8, 23#8, 46#8, 69#8, 92#8, 116#8, 139#8, 162#8, 185#8, 208#8, 231#8, 255#8]

/-- `AXIS_CENTER` (R5). -/
def axisCenter : AxisValue := 128#8

/-- (128, 128), the reset value of PreviousReport (`PREV_RESET` of R5). -/
def centreReport : Report := { x := axisCenter, y := axisCenter }

/-- A report on the 16-bit port: byte 0 is x, byte 1 is y (R22, D9). -/
def Report.portWord (r : Report) : BitVec 16 := r.y ++ r.x

/-- The port `tx_valid` (R21). -/
def Outputs.txValid (o : Outputs) : Bool := o.trySend.isSome

/-- The port `tx_data`, which has no value while `tx_valid = 0` (R86). -/
def Outputs.txData (o : Outputs) : Option (BitVec 16) := o.trySend.map fun t => Report.portWord t.report

/-- The port `led_we` (R21). -/
def Outputs.ledWe (o : Outputs) : Bool := o.ledWrite.isSome

/-- The port `led_mask`, which has no value while `led_we = 0` (R86). -/
def Outputs.ledMask (o : Outputs) : Option LedMask := o.ledWrite

end Sys2Proof.Machine
end

