-- ==== Sys2Proof/Machine/Ops.lean ====
section
/-! DEFINITION. The shared operations: the combinational functions of files 40 to 44, the signals of a poll
(10_state.md R13), reading and writing the registers and the outputs, and taking the next input word. The block has
no exception to take and none to return from (60_exceptions.md R88, R94, R95), so no operation of either kind
stands here. -/

namespace Sys2Proof.Machine

/-! The functions (R41). -/

/-- `DECODE` (R48): the lowest cleared bit of the word, or no contact. -/
def positionDecode (w : RawWord) : SliderIndex :=
  (List.finRange 12).find? fun k => !w.getLsbD k.val

/-- `ORIENT` (R50): with `o = 1` a contact k becomes 11 − k; no contact stays no contact (D6). -/
def orient (o : Bool) (i : SliderIndex) : SliderIndex :=
  if o then i.map Fin.rev else i

/-- `AXISMAP` (R53): the table entry of a contact, the centre for no contact. -/
def axisMap : SliderIndex → AxisValue
  | none => axisCenter
  | some k => axisLut[k]

/-- `DIST` (R57), the formula as written (C1, D13). -/
def dist : SliderIndex → Nat
  | none => 0
  | some k => if k.val > 5 then k.val - 5 else 5 - k.val

/-- `SELECT` (R58): the index of the axis farther from centre, the vertical one on a tie. -/
def select (v h : SliderIndex) : SliderIndex :=
  if selH (dist v) (dist h) then h else v

/-- The LED Mapper's distance `d` (R64), of a contact outside the centre zone. -/
def ledDistance (k : Fin 12) : Nat :=
  if k.val < 5 then 5 - k.val else k.val - 6

/-- The lit count `N` (R65). -/
def litCount (d : Nat) : Nat :=
  if d < 2 then 2 else min (d + 1) 4

/-- The mask whose set bits are the `n` bits from bit `lo` upward. -/
def bitRun (lo n : Nat) : LedMask := BitVec.ofNat 8 ((2 ^ n - 1) * 2 ^ lo)

/-- `LEDMAP` (R63): nothing for no contact, bits 3 and 4 in the centre zone, otherwise `N` bits downward from bit 3
or upward from bit 4 (R66). -/
def ledMap : SliderIndex → LedMask
  | none => 0#8
  | some k =>
    if k.val = 5 ∨ k.val = 6 then bitRun 3 2
    else if k.val < 5 then bitRun (4 - litCount (ledDistance k)) (litCount (ledDistance k))
    else bitRun 4 (litCount (ledDistance k))

/-- `GATE` (R71): the report is offered if and only if it changed; PreviousReport becomes it only when the offer is
accepted (R72) and keeps its value otherwise (R73). -/
def gate (new prev : Report) (txReady : Bool) : GateResult :=
  { offer := if changed new prev then some { report := new, accepted := txReady } else none
    next := if accept (changed new prev) txReady then new else prev }

/-! The signals of a poll, under the names of R13. Each takes the parameters of R6 as an argument (R18). -/

/-- `v_idx` (R51, R81). -/
def vIdx (cfg : Config) (vRaw : RawWord) : SliderIndex := orient cfg.orientV (positionDecode vRaw)

/-- `h_idx` (R51, R81). -/
def hIdx (cfg : Config) (hRaw : RawWord) : SliderIndex := orient cfg.orientH (positionDecode hRaw)

/-- `sel_idx`. -/
def selIdx (cfg : Config) (vRaw hRaw : RawWord) : SliderIndex := select (vIdx cfg vRaw) (hIdx cfg hRaw)

/-- `mask`. -/
def mask (cfg : Config) (vRaw hRaw : RawWord) : LedMask := ledMap (selIdx cfg vRaw hRaw)

/-- The new report (R69): x from the horizontal slider, y from the vertical one (R38). -/
def newReport (cfg : Config) (vRaw hRaw : RawWord) : Report :=
  { x := axisMap (hIdx cfg hRaw), y := axisMap (vIdx cfg vRaw) }

/-- The LED action of a reporting-mode poll (R84). -/
def ledAction (cfg : Config) (vRaw hRaw : RawWord) : Option LedMask :=
  match cfg.ledInReportMode with
  | .hold => none
  | .update => some (mask cfg vRaw hRaw)
  | .off => some 0#8

/-! The registers, the outputs and the inputs. -/

/-- PreviousReport: the two registers are always read as a pair (R10). -/
def State.report (s : State) : Report := { x := s.prevX, y := s.prevY }

/-- Both registers are written together (R72). -/
def State.writeReport (s : State) (r : Report) : State := { s with prevX := r.x, prevY := r.y }

/-- The outputs of this step, whole: nothing of an earlier step's outputs stays. -/
def State.present (s : State) (o : Outputs) : State := { s with out := o }

/-- The outcome of evaluating one function alone: its value is presented, no event is emitted and no register is
written (log entry 5). -/
def presentValue (v : FunctionValue) (s : State) : Host.Outcome State Fault Refusal :=
  .next (s.present { trySend := none, ledWrite := none, value := some v })

/-- A function of an index operand: a reserved code is refused, and there is no value for it (R42, R55, U1). -/
def withIndex (c : IndexCode) (f : SliderIndex → Host.Outcome State Fault Refusal) :
    Host.Outcome State Fault Refusal :=
  match readIndex c with
  | .ok i => f i
  | .error r => .refused r

/-- `POLL.TEST` under given parameters (R82): one LED write; the Report Gate does not run. -/
def pollTestUnder (cfg : Config) (vRaw hRaw : RawWord) (s : State) : State :=
  s.present { trySend := none, ledWrite := some (mask cfg vRaw hRaw), value := none }

/-- `POLL.RPT` under given parameters (R83): the gate on this poll's report, and the LED action. -/
def pollRptUnder (cfg : Config) (vRaw hRaw : RawWord) (txReady : Bool) (s : State) : State :=
  let g := gate (newReport cfg vRaw hRaw) s.report txReady
  (s.writeReport g.next).present { trySend := g.offer, ledWrite := ledAction cfg vRaw hRaw, value := none }

/-- The parameters the operations run under. -/
def config : Config := Config.board

/-- Take the next input word: the first one placed, or, when none is, a step word drawn from the outside world
(R29, log entry 1). -/
def State.takeInput (s : State) : InputWord × State :=
  match s.stimulus with
  | w :: ws => (w, { s with stimulus := ws })
  | [] => (.step (Config.drawnStepWord s.draws), { s with draws := s.draws + 1 })

/-- Place an input word before those already there. -/
def State.placeInput (s : State) (w : InputWord) : State := { s with stimulus := w :: s.stimulus }

/-- The refusal a rejected input word ends a step with. -/
def refusalOf : Reject → Refusal
  | .reservedIndex c => .reservedIndex c

end Sys2Proof.Machine
end

