-- ==== Sys2Proof/Machine/Control.lean ====
section
/-! DEFINITION. The meanings of the four top-level operations (45_poll.md R78 to R86). -/

namespace Sys2Proof.Machine

/-- `RESET` (R79): PreviousReport becomes (128, 128) and nothing is emitted, whatever the state. -/
def execReset (s : State) : Host.Outcome State Fault Refusal :=
  .next ((s.writeReport centreReport).present Outputs.quiet)

/-- `IDLE` (R80): the identity on the state; nothing is emitted. -/
def execIdle (s : State) : Host.Outcome State Fault Refusal :=
  .next (s.present Outputs.quiet)

/-- `POLL.TEST` (R82). -/
def execPollTest (vRaw hRaw : RawWord) (s : State) : Host.Outcome State Fault Refusal :=
  .next (pollTestUnder config vRaw hRaw s)

/-- `POLL.RPT` (R83). -/
def execPollRpt (vRaw hRaw : RawWord) (txReady : Bool) (s : State) : Host.Outcome State Fault Refusal :=
  .next (pollRptUnder config vRaw hRaw txReady s)

end Sys2Proof.Machine
end

