-- ==== Sys2Proof/Machine/Functions.lean ====
section
/-! DEFINITION. The meanings of the eight combinational functions, each evaluated alone on its own input word
(30_encoding.md R41, log entry 5). -/

namespace Sys2Proof.Machine

/-- `DECODE` (R48). -/
def execDecode (raw : RawWord) (s : State) : Host.Outcome State Fault Refusal :=
  presentValue (.index (positionDecode raw)) s

/-- `ORIENT` (R50). -/
def execOrient (o : Bool) (idx : IndexCode) (s : State) : Host.Outcome State Fault Refusal :=
  withIndex idx fun i => presentValue (.index (orient o i)) s

/-- `AXISMAP` (R53). -/
def execAxismap (idx : IndexCode) (s : State) : Host.Outcome State Fault Refusal :=
  withIndex idx fun i => presentValue (.axis (axisMap i)) s

/-- `DIST` (R57). -/
def execDist (idx : IndexCode) (s : State) : Host.Outcome State Fault Refusal :=
  withIndex idx fun i => presentValue (.distance (dist i)) s

/-- `SELECT` (R58). -/
def execSelect (v h : IndexCode) (s : State) : Host.Outcome State Fault Refusal :=
  withIndex v fun iv => withIndex h fun ih => presentValue (.index (select iv ih)) s

/-- `LEDMAP` (R63). -/
def execLedmap (idx : IndexCode) (s : State) : Host.Outcome State Fault Refusal :=
  withIndex idx fun i => presentValue (.mask (ledMap i)) s

/-- `CHANGED` (R70). -/
def execChanged (new prev : Report) (s : State) : Host.Outcome State Fault Refusal :=
  presentValue (.bit (changed new prev)) s

/-- `GATE` (R71). Its PreviousReport is an operand and its next PreviousReport a result: the registers are neither
read nor written (log entry 6). -/
def execGate (txReady : Bool) (new prev : Report) (s : State) : Host.Outcome State Fault Refusal :=
  presentValue (.gate (gate new prev txReady)) s

end Sys2Proof.Machine
end

