-- ==== Sys2Proof/Machine/Dispatch.lean ====
section
/-! DEFINITION. One arm for each constructor of Instr, one direct call of its meaning. -/

namespace Sys2Proof.Machine

def exec (i : Instr) (s : State) : Host.Outcome State Fault Refusal :=
  match i with
  | .reset => Sys2Proof.Machine.execReset s
  | .idle => Sys2Proof.Machine.execIdle s
  | .pollTest vRaw hRaw => Sys2Proof.Machine.execPollTest vRaw hRaw s
  | .pollRpt vRaw hRaw txReady => Sys2Proof.Machine.execPollRpt vRaw hRaw txReady s
  | .decode raw => Sys2Proof.Machine.execDecode raw s
  | .orient o idx => Sys2Proof.Machine.execOrient o idx s
  | .axismap idx => Sys2Proof.Machine.execAxismap idx s
  | .dist idx => Sys2Proof.Machine.execDist idx s
  | .select vIdx hIdx => Sys2Proof.Machine.execSelect vIdx hIdx s
  | .ledmap idx => Sys2Proof.Machine.execLedmap idx s
  | .changed new prev => Sys2Proof.Machine.execChanged new prev s
  | .gate txReady new prev => Sys2Proof.Machine.execGate txReady new prev s

end Sys2Proof.Machine
end

