-- ==== Sys2Proof/Machine/Step.lean ====
section
/-! DEFINITION. One step of the machine (00_scope.md R7): take one input word, decode it, run it. -/

namespace Sys2Proof.Machine

/-- One atomic step. There is no fetch (10_state.md R12): the word decoded is the word presented. -/
def step (s : State) : Host.Outcome State Fault Refusal :=
  match decode s.takeInput.1 with
  | .ok i => exec i s.takeInput.2
  | .error r => .refused (refusalOf r)

/-- The state in which the next step runs the bare table word `w` of `nbits` bits: the word is placed as the next
input. A word that no single row fits (log entry 9) places nothing. -/
def State.withFetchWord (s : State) (nbits w : Nat) : State :=
  match tableInput nbits w with
  | some iw => s.placeInput iw
  | none => s

end Sys2Proof.Machine
end

