-- ==== Sys2Proof/Machine/Environment.lean ====
section
/-! DEFINITION. The collaborators around the block, as far as the spec describes them (60_exceptions.md R98 to R101),
for claims about the closed system. None of this is state of the block (10_state.md R16) and no part of `exec` or
`step` uses it; the block's own inputs stay free (log entry 13). -/

namespace Sys2Proof.Machine

/-- The block with its transport, its host and its LED bank. -/
structure System where
  block : State
  /-- The transport's `busy` bit (R99): a transmission is in flight. Any value at the start (U10). -/
  busy : Bool
  /-- Reports accepted and not yet completed, a count for claims only. -/
  unfinished : Nat
  /-- The reports the transport accepted, oldest first (R99: "the host is sent (x, y)"). -/
  received : List Report
  /-- The mask the LED bank shows (R100). Any value at the start (U9). -/
  shown : LedMask
  deriving DecidableEq, Repr

/-- What happens next: a step of the block, or, between two steps, the transport's completion notification
(R92, `ENV TXDONE` of 30_encoding.md R45). -/
inductive Event where
  | step (w : StepWord)
  | txDone
  deriving DecidableEq, Repr

/-- The report that passes to the transport in a step, if one does: an offer that is accepted (20_memory.md R26). -/
def Outputs.taken (o : Outputs) : Option Report :=
  match o.trySend with
  | some t => if t.accepted then some t.report else none
  | none => none

/-- The transport, the host and the LED bank take the outputs of one step of the block (R99, R100). -/
def System.observe (y : System) (t : State) : System :=
  match Outputs.taken t.out with
  | some r =>
    { block := t, busy := true, unfinished := y.unfinished + 1, received := y.received ++ [r]
      shown := t.out.ledWrite.getD y.shown }
  | none => { y with block := t, shown := t.out.ledWrite.getD y.shown }

/-- One event of the closed system. The completion touches no state of the block (R92, R111). -/
def System.advance (y : System) : Event → System
  | .step w =>
    match exec (decodeStep w) y.block with
    | .next t => y.observe t
    | .fault _ => y
    | .refused _ => y
  | .txDone => { y with busy := false, unfinished := 0 }

/-- A run of the closed system. -/
def System.run (y : System) (events : List Event) : System := events.foldl System.advance y

/-- The one thing a claim may assume of every transport (R99): an offer made while a transmission is in flight is
rejected. A step that makes no offer is permitted whatever its `tx_ready`, which the block then does not look at
(44_report_gate.md R75), so a transport may derive `tx_ready` from `tx_valid` (70_reset_and_hazards.md R114). -/
def Event.permitted (y : System) : Event → Bool
  | .step w =>
    match exec (decodeStep w) y.block with
    | .next t => !(y.busy && (Outputs.taken t.out).isSome)
    | .fault _ => true
    | .refused _ => true
  | .txDone => true

/-- R99's transport "more loosely": `tx_ready` of a reporting-mode poll is any value that is 0 when busy. -/
def Event.zeroWhenBusy (y : System) : Event → Bool
  | .step w =>
    match decodeStep w with
    | .pollRpt _ _ r => !(y.busy && r)
    | _ => true
  | .txDone => true

/-- The smallest transport of R99: `tx_ready` is `not busy`, in every reporting-mode poll, offer or not. -/
def Event.smallest (y : System) : Event → Bool
  | .step w =>
    match decodeStep w with
    | .pollRpt _ _ r => r == !y.busy
    | _ => true
  | .txDone => true

/-- Is every event of a run permitted in the state it finds? -/
def System.permittedRun : System → List Event → Bool
  | _, [] => true
  | y, e :: es => e.permitted y && System.permittedRun (y.advance e) es

/-- The touch hardware's promise (R98), a premise a claim may name and the block does not need: at most one run of
adjacent segments is touched. -/
def oneRegion (w : RawWord) : Bool :=
  (List.range 12).any fun lo => (List.range 13).any fun n => w == ~~~(BitVec.ofNat 12 ((2 ^ n - 1) * 2 ^ lo))

end Sys2Proof.Machine
end

