-- ==== Sys2Proof/Machine/WholeStep.lean ====
section
/-! DEFINITION. The whole step as one function, transcribed from 45_poll.md R87. It is the spec's second description
of the four operations and is used in claims only: `exec` does not call it. -/

namespace Sys2Proof.Machine

/-- The result of `STEP`: the next state and the two optional events (R87). -/
structure StepResult where
  next : Report
  trySend : Option TrySend
  ledWrite : Option LedMask
  deriving DecidableEq, Repr

/-- `STEP(cfg, s, rst, poll, test_mode, tx_ready, v_raw, h_raw)` (R87). -/
def wholeStep (cfg : Config) (s : Report) (rst poll testMode txReady : Bool) (vRaw hRaw : RawWord) : StepResult :=
  if rst then ⟨⟨128#8, 128#8⟩, none, none⟩
  else if !poll then ⟨s, none, none⟩
  else
    let v := orient cfg.orientV (positionDecode vRaw)
    let h := orient cfg.orientH (positionDecode hRaw)
    let m := ledMap (select v h)
    if testMode then ⟨s, none, some m⟩
    else
      let r : Report := { x := axisMap h, y := axisMap v }
      let led : Option LedMask :=
        match cfg.ledInReportMode with
        | .hold => none
        | .update => some m
        | .off => some 0#8
      if r = s then ⟨s, none, led⟩
      else if txReady then ⟨r, some ⟨r, true⟩, led⟩
      else ⟨s, some ⟨r, false⟩, led⟩

end Sys2Proof.Machine
end

