-- ==== Sys2Proof/Safety.lean ====
section
/-! DEFINITION. What counts as a safe run, in the terms claims use: the values that occur (10_state.md R11,
30_encoding.md R35, 43_led_encoder.md R68), the invariant of every step, and the events of a run. -/

namespace Sys2Proof.Machine

/-- The 13 AxisValues that occur (R35). -/
def axisValues : List AxisValue :=
  [0#8, 23#8, 46#8, 69#8, 92#8, 116#8, 128#8, 139#8, 162#8, 185#8, 208#8, 231#8, 255#8]

/-- The 8 LedMasks that occur (R68). -/
def ledMasks : List LedMask :=
  [0x00#8, 0x0C#8, 0x0E#8, 0x0F#8, 0x18#8, 0x30#8, 0x70#8, 0xF0#8]

/-- `popcount` of a mask (R8): how many LEDs are lit. -/
def popcount (m : LedMask) : Nat := (List.finRange 8).countP fun b => m.getLsbD b.val

/-- The invariant of the machine: the registers hold values that occur (R11), an offer holds values that occur and
was accepted exactly when PreviousReport is now that report (R72, R73), and a mask is one that occurs (R68). -/
structure State.Inv (s : State) : Prop where
  prevX : s.prevX ∈ axisValues
  prevY : s.prevY ∈ axisValues
  offer : ∀ t, s.out.trySend = some t →
    t.report.x ∈ axisValues ∧ t.report.y ∈ axisValues ∧ (t.accepted = true ↔ s.report = t.report)
  lit : ∀ m, s.out.ledWrite = some m → m ∈ ledMasks

/-- Run instructions in order, keeping each with the outputs of its step (R117); `none` where one is refused. -/
def runInstrs : List Instr → State → Option (List (Instr × Outputs) × State)
  | [], s => some ([], s)
  | i :: is, s =>
    match exec i s with
    | .next t => (runInstrs is t).map fun r => ((i, t.out) :: r.1, r.2)
    | .fault _ => none
    | .refused _ => none

/-- What one observed step makes of the last report the transport took: `RESET` makes it (128, 128), an accepted
offer makes it that offer, anything else leaves it (30_encoding.md R37, glossary "PreviousReport"). -/
def lastAfter (r : Report) (e : Instr × Outputs) : Report :=
  match e.1, e.2.trySend with
  | .reset, _ => centreReport
  | _, some ⟨q, true⟩ => q
  | _, _ => r

end Sys2Proof.Machine
end

