-- ==== Sys2Proof/Certificates/Slice0/Obligations.lean ====
section
/-! DEFINITION. The statements for the provers. They are about `Sys2Proof.Machine.config`, which no proof can
evaluate: each holds for every orientation of either slider and every LED policy (00_scope.md R6, log entry 4). -/

namespace Sys2Proof.Claims

open Sys2Proof.Machine

/-- The state after a function is evaluated alone: its value is shown, nothing else changes. Where the value is
shown is the model's own (log entry 5). -/
def shows (s : State) (v : FunctionValue) : State :=
  { s with out := { trySend := none, ledWrite := none, value := some v } }

/-- The twelve literals of 41_axis_mapper.md R54. -/
def printedTable : List Nat := [0, 23, 46, 69, 92, 116, 139, 162, 185, 208, 231, 255]

/-- `v_idx` of 45_poll.md R81. -/
def vertical (vRaw : RawWord) : SliderIndex := orient config.orientV (positionDecode vRaw)

/-- `h_idx` of R81. -/
def horizontal (hRaw : RawWord) : SliderIndex := orient config.orientH (positionDecode hRaw)

/-- The mask a poll computes (R82). -/
def pollMask (vRaw hRaw : RawWord) : LedMask := ledMap (select (vertical vRaw) (horizontal hRaw))

/-- The report of a reporting-mode poll (44_report_gate.md R69). -/
def pollReport (vRaw hRaw : RawWord) : Report :=
  { x := axisMap (horizontal hRaw), y := axisMap (vertical vRaw) }

/-- The LED event of a reporting-mode poll, by the table of R84, the spec's decision D7 (log entry 12). -/
def reportModeLed (vRaw hRaw : RawWord) : Option LedMask :=
  match config.ledInReportMode with
  | .hold => none
  | .update => some (pollMask vRaw hRaw)
  | .off => some 0#8

end Sys2Proof.Claims

open Sys2Proof Sys2Proof.Machine Sys2Proof.Claims

/-! Reset, idle and the step. -/

/-- 10_state.md R17: `prev_x` and `prev_y` are 128 after reset, and the reset step emits nothing (the quiet outputs
are decision D3 of the spec). That nothing is placed or drawn is the model's choice, log entries 1 and 2, and is not
claimed. -/
def Obligations.ResetStateIsCentred : Prop :=
  State.reset.prevX = 128#8 ∧ State.reset.prevY = 128#8 ∧
    State.reset.out.trySend = none ∧ State.reset.out.ledWrite = none

/-- 45_poll.md R79, decision D3: `RESET` completes in every state, makes PreviousReport (128, 128) and emits nothing;
every word with `rst = 1` selects it. -/
def Obligations.ResetCentresPreviousReport : Prop :=
  (∀ s : State, exec .reset s =
    .next { s with prevX := 128#8, prevY := 128#8, out := { trySend := none, ledWrite := none, value := none } }) ∧
  ∀ w : StepWord, w.getLsbD 27 = true → decode (.step w) = .ok .reset

/-- R80, decision D1: `IDLE` completes, keeps PreviousReport and emits nothing; every word with `rst = poll = 0`
selects it. -/
def Obligations.IdleKeepsPreviousReport : Prop :=
  (∀ s : State, exec .idle s =
    .next { s with out := { trySend := none, ledWrite := none, value := none } }) ∧
  ∀ w : StepWord, w.getLsbD 27 = false → w.getLsbD 26 = false → decode (.step w) = .ok .idle

/-- The step runs what it decodes: the first word placed, and otherwise a word drawn from outside. Taking the
inputs from the state is the model's choice, log entry 1. -/
def Obligations.StepRunsDecodedInput : Prop :=
  (∀ (s : State) (w : InputWord) (ws : List InputWord) (i : Instr),
    s.stimulus = w :: ws → decode w = .ok i → step s = exec i { s with stimulus := ws }) ∧
  ∀ (s : State) (i : Instr),
    s.stimulus = [] → decode (.step (Config.drawnStepWord s.draws)) = .ok i →
      step s = exec i { s with draws := s.draws + 1 }

/-- Each step takes one input word and leaves the rest as they are, the model's own bookkeeping of log entry 1. -/
def Obligations.StepTakesOneInput : Prop :=
  ∀ s t : State, step s = .next t →
    (s.stimulus ≠ [] → t.stimulus = s.stimulus.tail ∧ t.draws = s.draws) ∧
    (s.stimulus = [] → t.stimulus = [] ∧ t.draws = s.draws + 1)

/-- 60_exceptions.md R88: no step faults, a step of the block always completes, and the one stop there is, on a
function exposed alone, is the refusal of a reserved index code. That the next input is read from the state is the
model's choice, log entry 1. -/
def Obligations.StepNeverStopsOnStepWords : Prop :=
  (∀ (s : State) (f : Fault), step s ≠ .fault f) ∧
  (∀ s : State, (∀ w, s.stimulus.head? = some w → ∃ x, w = .step x) → ∃ t, step s = .next t) ∧
  (∀ (s : State) (r : Refusal), step s = .refused r →
    ∃ c, r = .reservedIndex c ∧ (c = 12#4 ∨ c = 13#4 ∨ c = 14#4))

/-! Encodings. -/

/-- 30_encoding.md R39 and R40 (the packing is decision D15, that `rst` wins is D3): every step word, field by
field, selects exactly the operation of the table. -/
def Obligations.StepWordSelectsOperation : Prop :=
  ∀ (rst poll testMode txReady : Bool) (v h : RawWord),
    decode (.step (BitVec.ofNat 28 (rst.toNat * 2 ^ 27 + poll.toNat * 2 ^ 26 + testMode.toNat * 2 ^ 25 +
        txReady.toNat * 2 ^ 24 + v.toNat * 2 ^ 12 + h.toNat))) =
      .ok (if rst then .reset
        else if poll then (if testMode then .pollTest v h else .pollRpt v h txReady)
        else .idle)

/-- Decoding an encoded well-formed instruction gives it back, every operand at every value. -/
def Obligations.DecodeEncodeIsIdentity : Prop :=
  ∀ i : Instr, i.wellFormed = true → decode (encode i) = .ok i

/-- Every bit of a function's input word is an operand (R41): the word is encoded back from what it decodes to. -/
def Obligations.FunctionWordsEncodeBack : Prop :=
  ∀ (w : InputWord) (i : Instr), w.isStep = false → decode w = .ok i → encode i = w

/-- R42: the decoder answers only well-formed instructions, and every word it does not answer is rejected for a
reserved index code 12, 13 or 14. -/
def Obligations.DecodeAnswersOnlyWellFormed : Prop :=
  (∀ (w : InputWord) (i : Instr), decode w = .ok i → i.wellFormed = true) ∧
  ∀ w : InputWord, (∃ i, decode w = .ok i) ∨
    decode w = .error (.reservedIndex 12#4) ∨ decode w = .error (.reservedIndex 13#4) ∨
    decode w = .error (.reservedIndex 14#4)

/-- One word of each of several rows, written out bit by bit from the layouts of R39 and R41. -/
def Obligations.SampleWordsDecode : Prop :=
  decode (.step 0b1000111111111111111111111111#28) = .ok .reset ∧
  decode (.step 0b0110111111110111111111111110#28) = .ok (.pollTest 0xFF7#12 0xFFE#12) ∧
  decode (.step 0b0101111111110111111111111110#28) = .ok (.pollRpt 0xFF7#12 0xFFE#12 true) ∧
  decode (.orient 0b10011#5) = .ok (.orient true 3#4) ∧
  decode (.select 0b01111111#8) = .ok (.select 7#4 15#4) ∧
  decode (.changed 0b01000101100000001000000000010111#32) = .ok (.changed ⟨128#8, 69#8⟩ ⟨23#8, 128#8⟩) ∧
  decode (.gate 0b101000101100000001000000000010111#33) = .ok (.gate true ⟨128#8, 69#8⟩ ⟨23#8, 128#8⟩)

/-- R42 and 41_axis_mapper.md R55 for AXISMAP, DIST, SELECT and LEDMAP, and the note of opcode_table.json's row
`ORIENT` for `ORIENT`: a function of an index gives a reserved code no value; it refuses by name. That of two reserved
codes on `SELECT` the vertical one is named is the model's choice, log entry 7. -/
def Obligations.ReservedIndexIsRefused : Prop :=
  ∀ (s : State) (c : IndexCode), c = 12#4 ∨ c = 13#4 ∨ c = 14#4 →
    (∀ o, exec (.orient o c) s = .refused (.reservedIndex c)) ∧
    exec (.axismap c) s = .refused (.reservedIndex c) ∧
    exec (.dist c) s = .refused (.reservedIndex c) ∧
    exec (.ledmap c) s = .refused (.reservedIndex c) ∧
    (∀ d, exec (.select c d) s = .refused (.reservedIndex c)) ∧
    ∀ i : SliderIndex, exec (.select (codeOfIndex i) c) s = .refused (.reservedIndex c)

/-! The functions. -/

/-- 40_position_decoder.md R48: `DECODE` completes on all 4096 words and gives the lowest cleared position, or no
contact when all twelve bits are set. -/
def Obligations.DecodeFindsLowestCleared : Prop :=
  ∀ (raw : RawWord) (s : State),
    (raw = 0xFFF#12 ∧ exec (.decode raw) s = .next (shows s (.index none))) ∨
    ∃ k : Fin 12, raw.getLsbD k.val = false ∧ (∀ j : Fin 12, j < k → raw.getLsbD j.val = true) ∧
      exec (.decode raw) s = .next (shows s (.index (some k)))

/-- R48: "bits above it are never looked at". Words that agree up to the lowest cleared bit of one of them decode
alike. -/
def Obligations.DecodeIgnoresHigherBits : Prop :=
  ∀ (a b : RawWord) (k : Fin 12) (s : State),
    exec (.decode a) s = .next (shows s (.index (some k))) →
    (∀ j : Fin 12, j ≤ k → a.getLsbD j.val = b.getLsbD j.val) →
    exec (.decode b) s = exec (.decode a) s

/-- R50: `ORIENT` keeps a contact for constant 0 and gives 11 − k for constant 1, and is an involution. That no
contact stays no contact is decision D6. -/
def Obligations.OrientComplements : Prop :=
  ∀ (s : State) (o : Bool),
    (∀ k : Fin 12, ∃ j : Fin 12, j.val = (if o then 11 - k.val else k.val) ∧
      exec (.orient o (BitVec.ofNat 4 k.val)) s = .next (shows s (.index (some j)))) ∧
    exec (.orient o 15#4) s = .next (shows s (.index none)) ∧
    ∀ i : SliderIndex, orient o (orient o i) = i

/-- 41_axis_mapper.md R54 and the centre of R53: `AXISMAP` completes on every index, and its values are the printed
literals and 128. -/
def Obligations.AxisMapReadsTable : Prop :=
  ∀ s : State,
    exec (.axismap 15#4) s = .next (shows s (.axis 128#8)) ∧
    ∀ k : Fin 12, exec (.axismap (BitVec.ofNat 4 k.val)) s =
      .next (shows s (.axis (BitVec.ofNat 8 (printedTable.getD k.val 0))))

/-- R56: the table is increasing, the map is injective, and only the 13 values occur. -/
def Obligations.AxisMapIsInjective : Prop :=
  (∀ j k : Fin 12, j < k → axisMap (some j) < axisMap (some k)) ∧
  (∀ i j : SliderIndex, axisMap i = axisMap j → i = j) ∧
  ∀ i : SliderIndex, axisMap i ∈ axisValues

/-- 42_dominant_axis.md R57: `DIST` completes on every index and follows the formula as written. -/
def Obligations.DistFollowsFormula : Prop :=
  ∀ s : State,
    exec (.dist 15#4) s = .next (shows s (.distance 0)) ∧
    ∀ k : Fin 12, exec (.dist (BitVec.ofNat 4 k.val)) s =
      .next (shows s (.distance (if k.val > 5 then k.val - 5 else 5 - k.val)))

/-- R58, R59 and R60: `SELECT` completes on every pair of indices and gives the horizontal index exactly when its
distance is strictly larger; a tie gives the vertical one, and no contact on both gives no contact and an all-off
mask. -/
def Obligations.SelectPrefersLargerDistance : Prop :=
  (∀ (s : State) (v h : SliderIndex),
    exec (.select (codeOfIndex v) (codeOfIndex h)) s =
      .next (shows s (.index (if dist h > dist v then h else v)))) ∧
  (∀ v h : SliderIndex, dist v = dist h → select v h = v) ∧
  select none none = none ∧ ledMap (select none none) = 0#8

/-- 43_led_encoder.md R63 to R66: `LEDMAP` completes on every index. No contact lights nothing, 5 and 6 light bits 3
and 4, and every other contact lights `N` bits from bit 3 downward or from bit 4 upward. -/
def Obligations.LedMapLightsBarGraph : Prop :=
  (∀ s : State, exec (.ledmap 15#4) s = .next (shows s (.mask 0#8))) ∧
  ∀ (s : State) (k : Fin 12), ∃ m : LedMask,
    exec (.ledmap (BitVec.ofNat 4 k.val)) s = .next (shows s (.mask m)) ∧
    ∀ b < 8, m.getLsbD b = true ↔
      if k.val = 5 ∨ k.val = 6 then b = 3 ∨ b = 4
      else
        let d := if k.val < 5 then 5 - k.val else k.val - 6
        let n := if d < 2 then 2 else min (d + 1) 4
        if k.val < 5 then 4 - n ≤ b ∧ b ≤ 3 else 4 ≤ b ∧ b ≤ 3 + n

/-- R68: eight masks occur, at most four LEDs are lit and none only for no contact, and complementing a contact
mirrors its mask. -/
def Obligations.LedMapIsBoundedAndMirrors : Prop :=
  (∀ i : SliderIndex, ledMap i ∈ ledMasks ∧ popcount (ledMap i) ≤ 4) ∧
  (∀ i : SliderIndex, ledMap i = 0#8 ↔ i = none) ∧
  ∀ (k : Fin 12) (b : Fin 8), (ledMap (some k.rev)).getLsbD b.val = (ledMap (some k)).getLsbD b.rev.val

/-- 44_report_gate.md R70: `CHANGED` completes on all operands and is 1 exactly when either coordinate differs. -/
def Obligations.ChangedComparesBothCoordinates : Prop :=
  ∀ (s : State) (n p : Report), ∃ b : Bool,
    exec (.changed n p) s = .next (shows s (.bit b)) ∧ (b = true ↔ n.x ≠ p.x ∨ n.y ≠ p.y)

/-- R71: `GATE` completes on all operands. It offers the new report if and only if that differs from PreviousReport,
and its next PreviousReport is the new report only when the offer is accepted. That `GATE` evaluated alone leaves the
registers as they are is the model's reading, log entry 6. -/
def Obligations.GateOffersOnChange : Prop :=
  ∀ (s : State) (n p : Report) (r : Bool), ∃ g : GateResult,
    exec (.gate r n p) s = .next (shows s (.gate g)) ∧
    (n = p → g.offer = none ∧ g.next = p) ∧
    (n ≠ p → g.offer = some { report := n, accepted := r } ∧ g.next = if r then n else p)

/-- 20_memory.md R21 and R22 (the port form is D2 and D10, the byte order D9): an offer drives `tx_valid` and puts x
in the low and y in the high byte of `tx_data`; without one `tx_data` has no value. -/
def Obligations.PortsCarryTheReport : Prop :=
  (∀ (o : Outputs) (t : TrySend), o.trySend = some t →
    Outputs.txValid o = true ∧ ∃ d, Outputs.txData o = some d ∧
      d.toNat = t.report.y.toNat * 256 + t.report.x.toNat) ∧
  (∀ o : Outputs, o.trySend = none → Outputs.txValid o = false ∧ Outputs.txData o = none) ∧
  ∀ o : Outputs, Outputs.ledWe o = true ↔ ∃ m, Outputs.ledMask o = some m

/-! The polls. -/

/-- 45_poll.md R82: a test-mode poll completes, writes the mask of the selected index to the LED bank, offers
nothing and keeps PreviousReport; `tx_ready` is ignored, since a word with either value of it decodes to the poll. The
places of the word's fields are the packing of R39, the spec's decision D15, and that `test_mode = 1` is this mode is
its decision D8 (log entry 18). -/
def Obligations.PollTestWritesLedsOnly : Prop :=
  (∀ (v h : RawWord) (s : State), exec (.pollTest v h) s =
    .next { s with out := { trySend := none, ledWrite := some (pollMask v h), value := none } }) ∧
  ∀ w : StepWord, w.getLsbD 27 = false → w.getLsbD 26 = true → w.getLsbD 25 = true →
    decode (.step w) = .ok (.pollTest (w.extractLsb' 12 12) (w.extractLsb' 0 12))

/-- R83 with R71: a reporting-mode poll whose report equals PreviousReport completes, offers nothing and keeps it,
whatever `tx_ready`. The LED event is the open parameter of R84, the spec's decision D7 (log entry 12). -/
def Obligations.PollRptUnchangedOffersNothing : Prop :=
  ∀ (v h : RawWord) (r : Bool) (s : State),
    (pollReport v h).x = s.prevX → (pollReport v h).y = s.prevY →
    exec (.pollRpt v h r) s =
      .next { s with out := { trySend := none, ledWrite := reportModeLed v h, value := none } }

/-- R72, with the offer of R71 and R83: a changed report that the transport accepts is offered once and becomes
PreviousReport in the same step. The LED event is the open parameter of R84, the spec's decision D7 (log entry 12). -/
def Obligations.PollRptAcceptedUpdates : Prop :=
  ∀ (v h : RawWord) (s : State),
    (pollReport v h).x ≠ s.prevX ∨ (pollReport v h).y ≠ s.prevY →
    exec (.pollRpt v h true) s =
      .next { s with
        prevX := (pollReport v h).x
        prevY := (pollReport v h).y
        out := { trySend := some { report := pollReport v h, accepted := true }
                 ledWrite := reportModeLed v h
                 value := none } }

/-- R73, with the offer of R71 and R83: a changed report that the transport rejects is offered and PreviousReport is
left unchanged. The LED event is the open parameter of R84, the spec's decision D7 (log entry 12). -/
def Obligations.PollRptRejectedKeeps : Prop :=
  ∀ (v h : RawWord) (s : State),
    (pollReport v h).x ≠ s.prevX ∨ (pollReport v h).y ≠ s.prevY →
    exec (.pollRpt v h false) s =
      .next { s with
        out := { trySend := some { report := pollReport v h, accepted := false }
                 ledWrite := reportModeLed v h
                 value := none } }

/-- The document's scenario (95_test_vectors.md V14, V16) under either orientation: vertical bit 3 alone cleared,
PreviousReport (128, 128), transport ready. -/
def Obligations.EndToEndScenario : Prop :=
  ∀ s : State, s.prevX = 128#8 → s.prevY = 128#8 → ∃ t,
    exec (.pollRpt 0xFF7#12 0xFFF#12 true) s = .next t ∧
    t.prevX = 128#8 ∧ t.prevY = (if config.orientV then 185#8 else 69#8) ∧
    Outputs.txData t.out = some (if config.orientV then 0xB980#16 else 0x4580#16) ∧
    t.out.ledWrite =
      match config.ledInReportMode with
      | .hold => none
      | .update => some (if config.orientV then 0x70#8 else 0x0E#8)
      | .off => some 0x00#8

/-- 60_exceptions.md R89, first row: with neither slider touched a test-mode poll turns the LEDs off and a
reporting-mode poll reports (128, 128), under every configuration. -/
def Obligations.NoContactIsNeutral : Prop :=
  ∀ s : State,
    (∃ t, exec (.pollTest 0xFFF#12 0xFFF#12) s = .next t ∧ t.out.ledWrite = some 0#8) ∧
    pollReport 0xFFF#12 0xFFF#12 = ⟨128#8, 128#8⟩ ∧
    (s.report ≠ ⟨128#8, 128#8⟩ → ∃ t, exec (.pollRpt 0xFFF#12 0xFFF#12 true) s = .next t ∧
      t.prevX = 128#8 ∧ t.prevY = 128#8)

/-- 44_report_gate.md R77: after reset, untouched sliders never make a call. -/
def Obligations.UntouchedAfterResetOffersNothing : Prop :=
  ∀ (r : Bool) (s : State), s.prevX = State.reset.prevX → s.prevY = State.reset.prevY →
    ∃ t, exec (.pollRpt 0xFFF#12 0xFFF#12 r) s = .next t ∧
      t.out.trySend = none ∧ t.prevX = s.prevX ∧ t.prevY = s.prevY

/-- R77 with the premises of 90_conflicts.md C6: of two polls with identical reports the first of which is accepted,
the second makes no call. -/
def Obligations.AcceptedReportIsOfferedOnce : Prop :=
  ∀ (v h : RawWord) (r : Bool) (s t : State) (o : TrySend),
    exec (.pollRpt v h true) s = .next t → t.out.trySend = some o →
    ∃ u, exec (.pollRpt v h r) t = .next u ∧ u.out.trySend = none ∧
      u.prevX = o.report.x ∧ u.prevY = o.report.y

/-- R77: a rejected report is offered again on the next poll of the same raw words, any number of times. -/
def Obligations.RejectedReportIsOfferedAgain : Prop :=
  ∀ (v h : RawWord) (r : Bool) (s t : State) (o : TrySend),
    exec (.pollRpt v h false) s = .next t → t.out.trySend = some o →
    t.prevX = s.prevX ∧ t.prevY = s.prevY ∧
    ∃ u, exec (.pollRpt v h r) t = .next u ∧ u.out.trySend = some { report := o.report, accepted := r }

/-! The whole machine. -/

/-- R87: a step of the block is `STEP`, on every step word and every state. That the word is placed in the state is the
model's choice, log entry 1, that the events are read from the record, log entry 3, and the places of the word's fields
are the packing of R39, the spec's decision D15. -/
def Obligations.StepMatchesWholeStep : Prop :=
  ∀ (s : State) (w : StepWord),
    let r := wholeStep config s.report (w.getLsbD 27) (w.getLsbD 26) (w.getLsbD 25) (w.getLsbD 24)
      (w.extractLsb' 12 12) (w.extractLsb' 0 12)
    step (s.placeInput (.step w)) =
      .next { s with
        prevX := r.next.x
        prevY := r.next.y
        out := { trySend := r.trySend, ledWrite := r.ledWrite, value := none } }

/-- 70_reset_and_hazards.md R111 and R105: PreviousReport changes only in a reset or in a step that offered it as a
report and had it accepted. -/
def Obligations.PreviousReportHasOneWriter : Prop :=
  ∀ s t : State, step s = .next t → t.report ≠ s.report →
    (t.prevX = 128#8 ∧ t.prevY = 128#8 ∧ decode s.takeInput.1 = .ok .reset) ∨
    (t.out.trySend = some { report := t.report, accepted := true } ∧
      ∃ v h, decode s.takeInput.1 = .ok (.pollRpt v h true))

/-- What each instruction leaves unchanged. The inputs are untouched by all; the registers by all but `RESET` and an
accepted reporting-mode poll of a changed report; only polls emit; only functions evaluated alone show a value. The
inputs are the model's own bookkeeping, log entries 1 and 2, and the value shown is its choice, log entry 5. -/
def Obligations.ExecFrame : Prop :=
  ∀ (i : Instr) (s t : State), exec i s = .next t →
    t.stimulus = s.stimulus ∧ t.draws = s.draws ∧
    (i ≠ .reset → (∀ v h, i = .pollRpt v h true → pollReport v h = s.report) →
      t.prevX = s.prevX ∧ t.prevY = s.prevY) ∧
    ((∀ v h r, i ≠ .pollRpt v h r) → t.out.trySend = none) ∧
    ((∀ v h, i ≠ .pollTest v h) → (∀ v h r, i ≠ .pollRpt v h r) → t.out.ledWrite = none) ∧
    (i.isOperation = true → t.out.value = none)

/-- 10_state.md R11 as an invariant of every step, with R35, R68, R72 and R73: the registers stay among the 13
values, offers and masks are values that occur, and an offer is accepted exactly when PreviousReport is now it. -/
def Obligations.StepKeepsInvariant : Prop :=
  ∀ s t : State, s.Inv → step s = .next t → t.Inv

/-- The reset state meets the invariant. -/
def Obligations.ResetMeetsInvariant : Prop := State.reset.Inv

/-- R10: the recorded outputs are no state. Whatever an earlier step showed, an instruction does the same. That the
outputs stand in the state record is the model's choice, log entry 3. -/
def Obligations.OutputsAreNotState : Prop :=
  ∀ (i : Instr) (s : State) (o : Outputs), exec i { s with out := o } = exec i s

/-- 20_memory.md R29: nothing but PreviousReport carries over. From two states with the same PreviousReport an
instruction shows the same outputs and leaves the same PreviousReport. -/
def Obligations.OnlyPreviousReportCarriesOver : Prop :=
  ∀ (i : Instr) (s u : State), s.prevX = u.prevX → s.prevY = u.prevY →
    (∃ t z, exec i s = .next t ∧ exec i u = .next z ∧
      t.prevX = z.prevX ∧ t.prevY = z.prevY ∧ t.out = z.out) ∨
    (∃ r, exec i s = .refused r ∧ exec i u = .refused r)

/-- 70_reset_and_hazards.md R114 and 44_report_gate.md R75 (decision D10) for `tx_valid`, R71 and R76 (decision D11) for
`tx_data`: whether a report is offered, and which, is no function of `tx_ready`. -/
def Obligations.OfferIndependentOfReady : Prop :=
  ∀ (v h : RawWord) (s : State), ∃ t u,
    exec (.pollRpt v h false) s = .next t ∧ exec (.pollRpt v h true) s = .next u ∧
    Outputs.txValid t.out = Outputs.txValid u.out ∧ Outputs.txData t.out = Outputs.txData u.out

/-- 45_poll.md R84: the LED action of a reporting-mode poll does not depend on PreviousReport, on `changed` or on
`tx_ready`, and under any two parameter settings of the same orientation the gate does the same. -/
def Obligations.LedActionIndependentOfGate : Prop :=
  (∀ (v h : RawWord) (r q : Bool) (s u : State), ∃ t z,
    exec (.pollRpt v h r) s = .next t ∧ exec (.pollRpt v h q) u = .next z ∧ t.out.ledWrite = z.out.ledWrite) ∧
  ∀ (cfg : Config) (p : LedPolicy) (v h : RawWord) (r : Bool) (s : State),
    let t := pollRptUnder cfg v h r s
    let z := pollRptUnder { cfg with ledInReportMode := p } v h r s
    t.prevX = z.prevX ∧ t.prevY = z.prevY ∧ t.out.trySend = z.out.trySend

/-- The glossary's PreviousReport, over a run of any instructions from any state: it is the last report accepted
since the last `RESET`, (128, 128) if none was accepted since, and the start value before either. -/
def Obligations.PreviousReportIsLastAccepted : Prop :=
  ∀ (is : List Instr) (s t : State) (log : List (Instr × Outputs)),
    runInstrs is s = some (log, t) → t.report = log.foldl lastAfter s.report

/-! The closed system (60_exceptions.md R98 to R101, decision D21, log entry 13). -/

/-- R92: the transport's completion notification reads and writes no state of the block. -/
def Obligations.CompletionTouchesNoBlockState : Prop :=
  ∀ y : System, (y.advance .txDone).block = y.block ∧ (y.advance .txDone).busy = false ∧
    (y.advance .txDone).shown = y.shown ∧ (y.advance .txDone).received = y.received

/-- R100: the LED bank shows the last mask written until the next write. -/
def Obligations.LedBankShowsLastWrite : Prop :=
  ∀ (y : System) (w : StepWord), ∃ t, exec (decodeStep w) y.block = .next t ∧
    (y.advance (.step w)).block = t ∧
    (∀ m, t.out.ledWrite = some m → (y.advance (.step w)).shown = m) ∧
    (t.out.ledWrite = none → (y.advance (.step w)).shown = y.shown)

/-- R99: with a transport of which nothing is assumed but that an offer made while a transmission is in flight is
rejected, at most one report is ever in flight. -/
def Obligations.AtMostOneReportInFlight : Prop :=
  ∀ (y : System) (events : List Event),
    y.unfinished ≤ (if y.busy then 1 else 0) → y.permittedRun events = true →
    (y.run events).unfinished ≤ 1

/-- 44_report_gate.md R77: over any run without a reset, with any transport, every report the host receives differs
from the one before it, the first from the PreviousReport at the start, and PreviousReport is the last received. -/
def Obligations.ReceivedReportsDiffer : Prop :=
  ∀ (y : System) (events : List Event),
    y.received = [] → (∀ w, Event.step w ∈ events → decodeStep w ≠ .reset) →
    List.IsChain (· ≠ ·) (y.block.report :: (y.run events).received) ∧
    (y.run events).block.report = (y.run events).received.getLast?.getD y.block.report
end

