-- ==== Sys2Proof/Laws/Decode.lean ====
section
/-! SUPPORT. What the decoder reads from a packed word, field by field, and when it answers. -/

namespace Sys2Proof

theorem indexCode_valid_iff (c : IndexCode) : IndexCode.valid c = true ↔ c.toNat < 12 ∨ c = 15#4 := by
  simp [IndexCode.valid]

/-- An instruction has no reserved code exactly when it is well formed. -/
theorem reservedCode_eq_none_iff (i : Instr) : reservedCode i = none ↔ i.wellFormed = true := by
  cases i <;> simp [reservedCode, Instr.wellFormed]
  case select v h =>
    cases IndexCode.valid v <;> cases IndexCode.valid h <;> simp

/-- The code a rejection names is reserved. -/
theorem reservedCode_invalid (i : Instr) (c : IndexCode) (h : reservedCode i = some c) :
    IndexCode.valid c = false := by
  cases i <;> simp [reservedCode] at h
  case orient o d => exact h.2 ▸ h.1
  case axismap d => exact h.2 ▸ h.1
  case dist d => exact h.2 ▸ h.1
  case ledmap d => exact h.2 ▸ h.1
  case select v g =>
    split at h
    · split at h <;> simp_all
    · simp_all

/-- Everything the decoder can answer. -/
theorem decode_ok_iff (w : InputWord) (i : Instr) :
    decode w = .ok i ↔ readFields w = i ∧ i.wellFormed = true := by
  unfold decode
  split
  · next h =>
    constructor
    · intro e; cases e; exact ⟨rfl, (reservedCode_eq_none_iff _).1 h⟩
    · rintro ⟨rfl, -⟩; rfl
  · next c h =>
    constructor
    · intro e; cases e
    · rintro ⟨rfl, wf⟩
      rw [(reservedCode_eq_none_iff _).2 wf] at h; cases h

/-- A rejection names the reserved code that stands in the word. -/
theorem decode_error_iff (w : InputWord) (r : Reject) :
    decode w = .error r ↔ ∃ c, r = .reservedIndex c ∧ reservedCode (readFields w) = some c := by
  unfold decode
  split
  · next h => simp [h]
  · next c h => simp [h, eq_comm]

theorem decodeStep_wellFormed (w : StepWord) : (decodeStep w).wellFormed = true := by
  unfold decodeStep; split <;> rfl

theorem decodeStep_isOperation (w : StepWord) : (decodeStep w).isOperation = true := by
  unfold decodeStep; split <;> rfl

/-- Every step word decodes (R40). -/
theorem decode_step (w : StepWord) : decode (.step w) = .ok (decodeStep w) :=
  (decode_ok_iff _ _).2 ⟨rfl, decodeStep_wellFormed w⟩

section packed
variable (rst poll testMode txReady : Bool) (v h : RawWord)

/-- Each bit of a packed step word, by the layout of R39. -/
theorem packStep_bit (k : Nat) :
    (packStep rst poll testMode txReady v h).getLsbD k =
      if k < 12 then h.getLsbD k
      else if k - 12 < 12 then v.getLsbD (k - 12)
      else (BitVec.ofBool rst ++ BitVec.ofBool poll ++ BitVec.ofBool testMode ++
        BitVec.ofBool txReady).getLsbD (k - 12 - 12) := by
  have outer := BitVec.getLsbD_append (i := k)
    (x := BitVec.ofBool rst ++ BitVec.ofBool poll ++ BitVec.ofBool testMode ++ BitVec.ofBool txReady ++ v) (y := h)
  refine outer.trans ?_
  rw [BitVec.getLsbD_append]

@[simp] theorem packStep_rst : StepWord.rst (packStep rst poll testMode txReady v h) = rst := by
  rw [StepWord.rst, packStep_bit]
  cases rst <;> cases poll <;> cases testMode <;> cases txReady <;> rfl
@[simp] theorem packStep_poll : StepWord.poll (packStep rst poll testMode txReady v h) = poll := by
  rw [StepWord.poll, packStep_bit]
  cases rst <;> cases poll <;> cases testMode <;> cases txReady <;> rfl
@[simp] theorem packStep_testMode : StepWord.testMode (packStep rst poll testMode txReady v h) = testMode := by
  rw [StepWord.testMode, packStep_bit]
  cases rst <;> cases poll <;> cases testMode <;> cases txReady <;> rfl
@[simp] theorem packStep_txReady : StepWord.txReady (packStep rst poll testMode txReady v h) = txReady := by
  rw [StepWord.txReady, packStep_bit]
  cases rst <;> cases poll <;> cases testMode <;> cases txReady <;> rfl
@[simp] theorem packStep_vRaw : StepWord.vRaw (packStep rst poll testMode txReady v h) = v := by
  apply BitVec.eq_of_getLsbD_eq
  intro k hk
  simp [StepWord.vRaw, packStep_bit, hk]
@[simp] theorem packStep_hRaw : StepWord.hRaw (packStep rst poll testMode txReady v h) = h := by
  apply BitVec.eq_of_getLsbD_eq
  intro k hk
  simp [StepWord.hRaw, packStep_bit, hk]

end packed

/-- The operation a packed step word selects (R40). -/
theorem decodeStep_packStep (rst poll testMode txReady : Bool) (v h : RawWord) :
    decodeStep (packStep rst poll testMode txReady v h) =
      if rst then .reset else if !poll then .idle else if testMode then .pollTest v h
      else .pollRpt v h txReady := by
  cases rst <;> cases poll <;> cases testMode <;> simp [decodeStep]

/-- The low `n` bits of an append are its lower part. -/
theorem extractLsb'_append_low {m n : Nat} (a : BitVec m) (b : BitVec n) :
    (a ++ b).extractLsb' 0 n = b := by
  apply BitVec.eq_of_getLsbD_eq
  intro k hk
  simp [BitVec.getLsbD_append, hk]

/-- The bits above the low `n` of an append are its upper part. -/
theorem extractLsb'_append_high {m n : Nat} (a : BitVec m) (b : BitVec n) :
    (a ++ b).extractLsb' n m = a := by
  apply BitVec.eq_of_getLsbD_eq
  intro k hk
  simp [BitVec.getLsbD_append, hk]

/-- A field inside the lower part of an append. -/
theorem extractLsb'_append_inside {m n : Nat} (a : BitVec m) (b : BitVec n) (lo len : Nat) (h : lo + len ≤ n) :
    (a ++ b).extractLsb' lo len = b.extractLsb' lo len := by
  apply BitVec.eq_of_getLsbD_eq
  intro k hk
  have : lo + k < n := by omega
  simp [BitVec.getLsbD_append, hk, this]

/-- A field inside the upper part of an append. -/
theorem extractLsb'_append_above {m n : Nat} (a : BitVec m) (b : BitVec n) (lo len : Nat) :
    (a ++ b).extractLsb' (n + lo) len = a.extractLsb' lo len := by
  apply BitVec.eq_of_getLsbD_eq
  intro k hk
  have h1 : ¬ (n + lo + k < n) := by omega
  have h2 : n + lo + k - n = lo + k := by omega
  simp [BitVec.getLsbD_append, hk, h1, h2]

@[simp] theorem reportAt_packReport (r : Report) : reportAt (packReport r) 0 = r := by
  obtain ⟨x, y⟩ := r
  exact congrArg₂ Report.mk (extractLsb'_append_low y x) (extractLsb'_append_high y x)

/-- A report packed in the low 16 bits of a word. -/
@[simp] theorem reportAt_append_low {m : Nat} (a : BitVec m) (r : Report) :
    reportAt (a ++ packReport r) 0 = r :=
  (congrArg₂ Report.mk (extractLsb'_append_inside a (packReport r) 0 8 (by omega))
    (extractLsb'_append_inside a (packReport r) (0 + 8) 8 (by omega))).trans (reportAt_packReport r)

/-- A report packed above the low 16 bits of a word. -/
theorem reportAt_append_high {m : Nat} (a : BitVec m) (r : Report) :
    reportAt (a ++ packReport r) 16 = reportAt a 0 :=
  congrArg₂ Report.mk (extractLsb'_append_above a (packReport r) 0 8)
    (extractLsb'_append_above a (packReport r) (0 + 8) 8)

end Sys2Proof
end

