-- ==== Sys2Proof/Laws/State.lean ====
section
/-! SUPPORT. One lemma for each field under each update of the state. -/

namespace Sys2Proof.Machine

@[simp] theorem writeReport_prevX (s : State) (r : Report) : (s.writeReport r).prevX = r.x := rfl
@[simp] theorem writeReport_prevY (s : State) (r : Report) : (s.writeReport r).prevY = r.y := rfl
@[simp] theorem writeReport_out (s : State) (r : Report) : (s.writeReport r).out = s.out := rfl
@[simp] theorem writeReport_stimulus (s : State) (r : Report) : (s.writeReport r).stimulus = s.stimulus := rfl
@[simp] theorem writeReport_draws (s : State) (r : Report) : (s.writeReport r).draws = s.draws := rfl
@[simp] theorem writeReport_report (s : State) (r : Report) : (s.writeReport r).report = r := rfl
@[simp] theorem writeReport_self (s : State) : s.writeReport s.report = s := rfl

@[simp] theorem present_prevX (s : State) (o : Outputs) : (s.present o).prevX = s.prevX := rfl
@[simp] theorem present_prevY (s : State) (o : Outputs) : (s.present o).prevY = s.prevY := rfl
@[simp] theorem present_out (s : State) (o : Outputs) : (s.present o).out = o := rfl
@[simp] theorem present_stimulus (s : State) (o : Outputs) : (s.present o).stimulus = s.stimulus := rfl
@[simp] theorem present_draws (s : State) (o : Outputs) : (s.present o).draws = s.draws := rfl
@[simp] theorem present_report (s : State) (o : Outputs) : (s.present o).report = s.report := rfl
@[simp] theorem present_present (s : State) (o p : Outputs) : (s.present o).present p = s.present p := rfl

@[simp] theorem placeInput_prevX (s : State) (w : InputWord) : (s.placeInput w).prevX = s.prevX := rfl
@[simp] theorem placeInput_prevY (s : State) (w : InputWord) : (s.placeInput w).prevY = s.prevY := rfl
@[simp] theorem placeInput_out (s : State) (w : InputWord) : (s.placeInput w).out = s.out := rfl
@[simp] theorem placeInput_stimulus (s : State) (w : InputWord) :
    (s.placeInput w).stimulus = w :: s.stimulus := rfl
@[simp] theorem placeInput_draws (s : State) (w : InputWord) : (s.placeInput w).draws = s.draws := rfl

theorem takeInput_placed (s : State) (w : InputWord) (ws : List InputWord) (h : s.stimulus = w :: ws) :
    s.takeInput = (w, { s with stimulus := ws }) := by
  simp [State.takeInput, h]

theorem takeInput_drawn (s : State) (h : s.stimulus = []) :
    s.takeInput = (.step (Config.drawnStepWord s.draws), { s with draws := s.draws + 1 }) := by
  simp [State.takeInput, h]

/-- Taking a word just placed gives it back and leaves the state as it was. -/
@[simp] theorem takeInput_placeInput (s : State) (w : InputWord) : (s.placeInput w).takeInput = (w, s) := rfl

@[simp] theorem takeInput_prevX (s : State) : s.takeInput.2.prevX = s.prevX := by
  unfold State.takeInput; split <;> rfl
@[simp] theorem takeInput_prevY (s : State) : s.takeInput.2.prevY = s.prevY := by
  unfold State.takeInput; split <;> rfl
@[simp] theorem takeInput_out (s : State) : s.takeInput.2.out = s.out := by
  unfold State.takeInput; split <;> rfl
@[simp] theorem takeInput_report (s : State) : s.takeInput.2.report = s.report := by
  simp [State.report]

/-- The input after the one taken: the tail of what was placed. -/
@[simp] theorem takeInput_stimulus (s : State) : s.takeInput.2.stimulus = s.stimulus.tail := by
  unfold State.takeInput; split <;> simp_all

theorem withFetchWord_of_some (s : State) (nbits w : Nat) (iw : InputWord) (h : tableInput nbits w = some iw) :
    s.withFetchWord nbits w = s.placeInput iw := by
  simp [State.withFetchWord, h]

end Sys2Proof.Machine
end

