-- ==== Sys2Proof/Machine/Trace.lean ====
section
/-! DEFINITION. The lines of the spec's trace notation and the step word of each (30_encoding.md R44, R45). A line is
held by its content; its spelling as text is not part of the machine (log entry 14). -/

namespace Sys2Proof.Machine

/-- One line of a trace; a field that is not written is `none`. -/
inductive TraceLine where
  | reset
  | idle
  | pollTest (v h : Option RawWord)
  | pollRpt (v h : Option RawWord) (rdy : Option Bool)
  /-- A line that begins with a semicolon (R45). -/
  | comment (text : String)
  /-- `ENV TXDONE` (R45), which is no step of the block. -/
  | envTxDone
  deriving DecidableEq, Repr

/-- The step word of a line, if it has one: fields not written are 0, a raw word not written is `FFF` (R44). -/
def TraceLine.word : TraceLine → Option StepWord
  | .reset => some (packStep true false false false 0xFFF#12 0xFFF#12)
  | .idle => some (packStep false false false false 0xFFF#12 0xFFF#12)
  | .pollTest v h => some (packStep false true true false (v.getD 0xFFF#12) (h.getD 0xFFF#12))
  | .pollRpt v h r => some (packStep false true false (r.getD false) (v.getD 0xFFF#12) (h.getD 0xFFF#12))
  | .comment _ => none
  | .envTxDone => none

/-- What a line makes happen in the closed system: nothing, for a comment. -/
def TraceLine.event : TraceLine → Option Event
  | .envTxDone => some .txDone
  | l => l.word.map Event.step

end Sys2Proof.Machine
end

