-- ==== Sys2Proof/Laws/Ops.lean ====
section
/-! SUPPORT. For each shared operation, the one lemma that says what it does; provers cite these and need not
unfold the operation. -/

namespace Sys2Proof.Machine

/-! Index codes (R34, R42). -/

@[simp] theorem readIndex_codeOfIndex (i : SliderIndex) : readIndex (codeOfIndex i) = .ok i := by
  cases i with
  | none => rfl
  | some k => revert k; decide

@[simp] theorem readIndex_none : readIndex 15#4 = .ok none := rfl

@[simp] theorem readIndex_contact (k : Fin 12) : readIndex (BitVec.ofNat 4 k.val) = .ok (some k) :=
  readIndex_codeOfIndex (some k)

/-- A code is read exactly when it is valid, and then it is the code of what is read. -/
theorem readIndex_ok_iff (c : IndexCode) (i : SliderIndex) : readIndex c = .ok i ↔ c = codeOfIndex i := by
  constructor
  · intro h
    unfold readIndex at h
    split at h
    · next lt =>
      cases h
      exact BitVec.eq_of_toNat_eq (by simp [codeOfIndex])
    · split at h
      · next e => cases h; exact e
      · cases h
  · rintro rfl; exact readIndex_codeOfIndex i

/-- A reserved code is refused under its own name. -/
theorem readIndex_invalid (c : IndexCode) (h : IndexCode.valid c = false) :
    readIndex c = .error (.reservedIndex c) := by
  simp only [IndexCode.valid, Bool.or_eq_false_iff, decide_eq_false_iff_not, beq_eq_false_iff_ne] at h
  simp [readIndex, h.1, h.2]

/-- A valid code is the code of an index. -/
theorem exists_index_of_valid (c : IndexCode) (h : IndexCode.valid c = true) : ∃ i, c = codeOfIndex i := by
  simp only [IndexCode.valid, Bool.or_eq_true, decide_eq_true_eq, beq_iff_eq] at h
  rcases h with lt | rfl
  · exact ⟨some ⟨c.toNat, lt⟩, BitVec.eq_of_toNat_eq (by simp [codeOfIndex])⟩
  · exact ⟨none, rfl⟩

@[simp] theorem codeOfIndex_valid (i : SliderIndex) : IndexCode.valid (codeOfIndex i) = true := by
  cases i with
  | none => rfl
  | some k => revert k; decide

@[simp] theorem withIndex_codeOfIndex (i : SliderIndex) (f : SliderIndex → Host.Outcome State Fault Refusal) :
    withIndex (codeOfIndex i) f = f i := by
  simp [withIndex]

theorem withIndex_invalid (c : IndexCode) (f : SliderIndex → Host.Outcome State Fault Refusal)
    (h : IndexCode.valid c = false) : withIndex c f = .refused (.reservedIndex c) := by
  simp [withIndex, readIndex_invalid c h]

/-- Everything `withIndex` does when it answers a next state. -/
theorem withIndex_next {c : IndexCode} {f : SliderIndex → Host.Outcome State Fault Refusal} {t : State}
    (h : withIndex c f = .next t) : ∃ i, c = codeOfIndex i ∧ f i = .next t := by
  unfold withIndex at h
  split at h
  · next i e => exact ⟨i, (readIndex_ok_iff c i).1 e, h⟩
  · cases h

/-- The reserved codes are 12, 13 and 14 (R34). -/
theorem valid_eq_false_iff (c : IndexCode) : IndexCode.valid c = false ↔ c = 12#4 ∨ c = 13#4 ∨ c = 14#4 := by
  revert c; decide

/-! The functions. -/

/-- `DECODE` answers k exactly when bit k is the lowest cleared bit (R48). -/
theorem positionDecode_eq_some_iff (w : RawWord) (k : Fin 12) :
    positionDecode w = some k ↔ w.getLsbD k.val = false ∧ ∀ j : Fin 12, j < k → w.getLsbD j.val = true := by
  unfold positionDecode
  rw [List.find?_eq_some_iff_getElem]
  simp only [Bool.not_eq_true', Bool.not_not, List.getElem_finRange, List.length_finRange]
  constructor
  · rintro ⟨hk, n, hn, rfl, hj⟩
    refine ⟨hk, fun j hjk => ?_⟩
    have := hj j.val hjk
    simpa using this
  · rintro ⟨hk, hj⟩
    refine ⟨hk, k.val, k.isLt, by simp, fun j hjk => ?_⟩
    have := hj ⟨j, by omega⟩ hjk
    simpa using this

/-- `DECODE` answers no contact exactly when all twelve bits are set (R48). -/
theorem positionDecode_eq_none_iff (w : RawWord) : positionDecode w = none ↔ w = 0xFFF#12 := by
  unfold positionDecode
  simp only [List.find?_eq_none, List.mem_finRange, true_implies, Bool.not_eq_true', Bool.not_eq_false]
  constructor
  · intro h
    apply BitVec.eq_of_getLsbD_eq
    intro k hk
    rw [h ⟨k, hk⟩]
    have : ∀ j : Fin 12, (0xFFF#12 : BitVec 12).getLsbD j.val = true := by decide
    exact (this ⟨k, hk⟩).symm
  · rintro rfl; decide

@[simp] theorem orient_none (o : Bool) : orient o none = none := by cases o <;> rfl
@[simp] theorem orient_false (i : SliderIndex) : orient false i = i := rfl
@[simp] theorem orient_true_some (k : Fin 12) : orient true (some k) = some k.rev := rfl

/-- Orienting twice gives the index back (R50). -/
@[simp] theorem orient_orient (o : Bool) (i : SliderIndex) : orient o (orient o i) = i := by
  cases o <;> cases i <;> simp [orient]

@[simp] theorem axisMap_none : axisMap none = 128#8 := rfl

/-- `AXISMAP` gives values that occur and no others (R56). -/
theorem axisMap_mem (i : SliderIndex) : axisMap i ∈ axisValues := by
  cases i with
  | none => decide
  | some k => revert k; decide

/-- Two indices with one axis value are equal (R56). -/
theorem axisMap_injective {i j : SliderIndex} (h : axisMap i = axisMap j) : i = j := by
  revert h; revert i j; decide

theorem dist_le (i : SliderIndex) : dist i ≤ 6 := by
  revert i; decide

/-- `SELECT` is horizontal exactly on a strictly larger horizontal distance (R58). -/
theorem select_eq (v h : SliderIndex) : select v h = if dist h > dist v then h else v := by
  simp [select, selH]

/-- `LEDMAP` gives masks that occur and no others (R68). -/
theorem ledMap_mem (i : SliderIndex) : ledMap i ∈ ledMasks := by
  revert i; decide

/-- At most four LEDs are lit (R68). -/
theorem popcount_ledMap (i : SliderIndex) : popcount (ledMap i) ≤ 4 := by
  revert i; decide

theorem changed_iff (n p : Report) : changed n p = true ↔ n ≠ p := by
  obtain ⟨nx, ny⟩ := n
  obtain ⟨px, py⟩ := p
  simp only [changed, Bool.or_eq_true, bne_iff_ne, ne_eq, Report.mk.injEq]
  tauto

@[simp] theorem changed_self (r : Report) : changed r r = false := by
  simp [changed]

/-- Everything `GATE` does: no offer, an accepted offer, or a rejected one (R71 to R73). -/
theorem gate_cases (n p : Report) (r : Bool) :
    (n = p ∧ gate n p r = ⟨none, p⟩) ∨
    (n ≠ p ∧ r = true ∧ gate n p r = ⟨some ⟨n, true⟩, n⟩) ∨
    (n ≠ p ∧ r = false ∧ gate n p r = ⟨some ⟨n, false⟩, p⟩) := by
  by_cases h : n = p
  · subst h; exact .inl ⟨rfl, by simp [gate, accept]⟩
  · have c := (changed_iff n p).2 h
    cases r
    · exact .inr (.inr ⟨h, rfl, by simp [gate, c, accept]⟩)
    · exact .inr (.inl ⟨h, rfl, by simp [gate, c, accept]⟩)

theorem gate_unchanged (p : Report) (r : Bool) : gate p p r = ⟨none, p⟩ := by
  simp [gate, accept]

theorem gate_accepted {n p : Report} (h : n ≠ p) : gate n p true = ⟨some ⟨n, true⟩, n⟩ := by
  simp [gate, accept, (changed_iff n p).2 h]

theorem gate_rejected {n p : Report} (h : n ≠ p) : gate n p false = ⟨some ⟨n, false⟩, p⟩ := by
  simp [gate, accept, (changed_iff n p).2 h]

/-! The signals of a poll. -/

theorem newReport_x_mem (cfg : Config) (v h : RawWord) : (newReport cfg v h).x ∈ axisValues := axisMap_mem _
theorem newReport_y_mem (cfg : Config) (v h : RawWord) : (newReport cfg v h).y ∈ axisValues := axisMap_mem _

theorem mask_mem (cfg : Config) (v h : RawWord) : mask cfg v h ∈ ledMasks := ledMap_mem _

/-- A mask written by a reporting-mode poll is one that occurs (R84, R68). -/
theorem ledAction_mem {cfg : Config} {v h : RawWord} {m : LedMask} (e : ledAction cfg v h = some m) :
    m ∈ ledMasks := by
  unfold ledAction at e
  split at e
  · cases e
  · cases e; exact mask_mem _ _ _
  · cases e; decide

end Sys2Proof.Machine
end

