-- ==== Sys2Proof/Laws/Step.lean ====
section
/-! SUPPORT. What `exec` and `step` can do, said once. -/

namespace Sys2Proof.Machine

/-! One equation for each instruction that completes. -/

theorem exec_reset (s : State) : exec .reset s = .next ((s.writeReport centreReport).present Outputs.quiet) := rfl

theorem exec_idle (s : State) : exec .idle s = .next (s.present Outputs.quiet) := rfl

theorem exec_pollTest (v h : RawWord) (s : State) :
    exec (.pollTest v h) s =
      .next (s.present { trySend := none, ledWrite := some (mask config v h), value := none }) := rfl

theorem exec_pollRpt (v h : RawWord) (r : Bool) (s : State) :
    exec (.pollRpt v h r) s =
      .next ((s.writeReport (gate (newReport config v h) s.report r).next).present
        { trySend := (gate (newReport config v h) s.report r).offer
          ledWrite := ledAction config v h
          value := none }) := rfl

/-- A function of the table, evaluated alone: it presents a value and does nothing else (log entry 5). -/
theorem exec_function_next {i : Instr} {s t : State} (hi : i.isOperation = false) (h : exec i s = .next t) :
    ∃ v, t = s.present { trySend := none, ledWrite := none, value := some v } := by
  cases i with
  | reset => cases hi
  | idle => cases hi
  | pollTest v g => cases hi
  | pollRpt v g r => cases hi
  | decode raw => cases h; exact ⟨_, rfl⟩
  | orient o c => obtain ⟨i, -, e⟩ := withIndex_next h; cases e; exact ⟨_, rfl⟩
  | axismap c => obtain ⟨i, -, e⟩ := withIndex_next h; cases e; exact ⟨_, rfl⟩
  | dist c => obtain ⟨i, -, e⟩ := withIndex_next h; cases e; exact ⟨_, rfl⟩
  | select v g =>
    obtain ⟨i, -, e⟩ := withIndex_next h
    obtain ⟨j, -, e⟩ := withIndex_next e
    cases e; exact ⟨_, rfl⟩
  | ledmap c => obtain ⟨i, -, e⟩ := withIndex_next h; cases e; exact ⟨_, rfl⟩
  | changed n p => cases h; exact ⟨_, rfl⟩
  | gate r n p => cases h; exact ⟨_, rfl⟩

/-- Everything an instruction can do when it answers a next state. -/
theorem exec_cases {i : Instr} {s t : State} (h : exec i s = .next t) :
    (i = .reset ∧ t = (s.writeReport centreReport).present Outputs.quiet) ∨
    (i = .idle ∧ t = s.present Outputs.quiet) ∨
    (∃ v g, i = .pollTest v g ∧
      t = s.present { trySend := none, ledWrite := some (mask config v g), value := none }) ∨
    (∃ v g r, i = .pollRpt v g r ∧ newReport config v g = s.report ∧
      t = s.present { trySend := none, ledWrite := ledAction config v g, value := none }) ∨
    (∃ v g, i = .pollRpt v g true ∧ newReport config v g ≠ s.report ∧
      t = (s.writeReport (newReport config v g)).present
        { trySend := some ⟨newReport config v g, true⟩, ledWrite := ledAction config v g, value := none }) ∨
    (∃ v g, i = .pollRpt v g false ∧ newReport config v g ≠ s.report ∧
      t = s.present
        { trySend := some ⟨newReport config v g, false⟩, ledWrite := ledAction config v g, value := none }) ∨
    (i.isOperation = false ∧
      ∃ v, t = s.present { trySend := none, ledWrite := none, value := some v }) := by
  cases hi : i.isOperation with
  | false => exact .inr (.inr (.inr (.inr (.inr (.inr ⟨rfl, exec_function_next hi h⟩)))))
  | true =>
    cases i with
    | reset => cases h; exact .inl ⟨rfl, rfl⟩
    | idle => cases h; exact .inr (.inl ⟨rfl, rfl⟩)
    | pollTest v g => cases h; exact .inr (.inr (.inl ⟨v, g, rfl, rfl⟩))
    | pollRpt v g r =>
      rw [exec_pollRpt] at h
      cases h
      rcases gate_cases (newReport config v g) s.report r with ⟨e, hg⟩ | ⟨ne, rfl, hg⟩ | ⟨ne, rfl, hg⟩
      · exact .inr (.inr (.inr (.inl ⟨v, g, r, rfl, e, by simp [hg]⟩)))
      · exact .inr (.inr (.inr (.inr (.inl ⟨v, g, rfl, ne, by simp [hg]⟩))))
      · exact .inr (.inr (.inr (.inr (.inr (.inl ⟨v, g, rfl, ne, by simp [hg]⟩)))))
    | decode _ => cases hi
    | orient _ _ => cases hi
    | axismap _ => cases hi
    | dist _ => cases hi
    | select _ _ => cases hi
    | ledmap _ => cases hi
    | changed _ _ => cases hi
    | gate _ _ _ => cases hi

/-- The four operations complete in every state (R88). -/
theorem exec_operation_completes (i : Instr) (s : State) (h : i.isOperation = true) : ∃ t, exec i s = .next t := by
  cases i with
  | reset => exact ⟨_, rfl⟩
  | idle => exact ⟨_, rfl⟩
  | pollTest _ _ => exact ⟨_, rfl⟩
  | pollRpt _ _ _ => exact ⟨_, rfl⟩
  | decode _ => cases h
  | orient _ _ => cases h
  | axismap _ => cases h
  | dist _ => cases h
  | select _ _ => cases h
  | ledmap _ => cases h
  | changed _ _ => cases h
  | gate _ _ _ => cases h

/-- A well-formed instruction completes in every state. -/
theorem exec_wellFormed_completes (i : Instr) (s : State) (wf : i.wellFormed = true) : ∃ t, exec i s = .next t := by
  cases i with
  | reset => exact ⟨_, rfl⟩
  | idle => exact ⟨_, rfl⟩
  | pollTest _ _ => exact ⟨_, rfl⟩
  | pollRpt _ _ _ => exact ⟨_, rfl⟩
  | decode _ => exact ⟨_, rfl⟩
  | orient o c => obtain ⟨k, rfl⟩ := exists_index_of_valid c wf; exact ⟨_, withIndex_codeOfIndex _ _⟩
  | axismap c => obtain ⟨k, rfl⟩ := exists_index_of_valid c wf; exact ⟨_, withIndex_codeOfIndex _ _⟩
  | dist c => obtain ⟨k, rfl⟩ := exists_index_of_valid c wf; exact ⟨_, withIndex_codeOfIndex _ _⟩
  | select v g =>
    obtain ⟨wv, wg⟩ := (Bool.and_eq_true _ _).mp wf
    obtain ⟨k, rfl⟩ := exists_index_of_valid v wv
    obtain ⟨l, rfl⟩ := exists_index_of_valid g wg
    exact ⟨_, (withIndex_codeOfIndex _ _).trans (withIndex_codeOfIndex _ _)⟩
  | ledmap c => obtain ⟨k, rfl⟩ := exists_index_of_valid c wf; exact ⟨_, withIndex_codeOfIndex _ _⟩
  | changed _ _ => exact ⟨_, rfl⟩
  | gate _ _ _ => exact ⟨_, rfl⟩

/-- A step that answers a next state ran the decoded instruction on the state less its input. -/
theorem step_next {s t : State} (h : step s = .next t) :
    ∃ i, decode s.takeInput.1 = .ok i ∧ exec i s.takeInput.2 = .next t := by
  unfold step at h
  split at h
  · next i e => exact ⟨i, e, h⟩
  · cases h

theorem step_of_decode {s : State} {i : Instr} (h : decode s.takeInput.1 = .ok i) :
    step s = exec i s.takeInput.2 := by
  simp [step, h]

end Sys2Proof.Machine
end

