-- ==== Sys2Proof/Laws/Environment.lean ====
section
/-! SUPPORT. What one event of the closed system can do, said once. -/

namespace Sys2Proof.Machine

@[simp] theorem taken_eq_some_iff (o : Outputs) (r : Report) :
    Outputs.taken o = some r ↔ o.trySend = some ⟨r, true⟩ := by
  unfold Outputs.taken
  cases h : o.trySend with
  | none => simp
  | some t =>
    obtain ⟨q, a⟩ := t
    cases a <;> simp

/-- Nothing passes to the transport, or the one accepted report does and makes it busy. -/
theorem observe_cases (y : System) (t : State) :
    (∃ r, t.out.trySend = some ⟨r, true⟩ ∧
      y.observe t = ⟨t, true, y.unfinished + 1, y.received ++ [r], t.out.ledWrite.getD y.shown⟩) ∨
    (Outputs.taken t.out = none ∧
      y.observe t = ⟨t, y.busy, y.unfinished, y.received, t.out.ledWrite.getD y.shown⟩) := by
  unfold System.observe
  split
  · next r e => exact .inl ⟨r, (taken_eq_some_iff _ _).1 e, rfl⟩
  · next e => exact .inr ⟨e, rfl⟩

@[simp] theorem observe_block (y : System) (t : State) : (y.observe t).block = t := by
  unfold System.observe; split <;> rfl

@[simp] theorem observe_shown (y : System) (t : State) :
    (y.observe t).shown = t.out.ledWrite.getD y.shown := by
  unfold System.observe; split <;> rfl

/-- A step event always happens: it is some completed operation of the block, observed. -/
theorem advance_step (y : System) (w : StepWord) : ∃ t,
    exec (decodeStep w) y.block = .next t ∧ y.advance (.step w) = y.observe t := by
  obtain ⟨t, h⟩ := exec_operation_completes (decodeStep w) y.block (decodeStep_isOperation w)
  exact ⟨t, h, by simp [System.advance, h]⟩

/-- A step event is permitted exactly when nothing is accepted while a transmission is in flight. -/
theorem permitted_step_iff {y : System} {w : StepWord} {t : State} (h : exec (decodeStep w) y.block = .next t) :
    Event.permitted y (.step w) = true ↔ (y.busy = true → Outputs.taken t.out = none) := by
  cases hb : y.busy <;> simp [Event.permitted, h, hb]

/-- A step with an accepted offer is a reporting-mode poll that found `tx_ready = 1`. -/
theorem pollRpt_of_taken {i : Instr} {s t : State} {r : Report} (h : exec i s = .next t)
    (ht : Outputs.taken t.out = some r) : ∃ v g, i = .pollRpt v g true := by
  rw [taken_eq_some_iff] at ht
  rcases exec_cases h with ⟨-, rfl⟩ | ⟨-, rfl⟩ | ⟨_, _, -, rfl⟩ | ⟨_, _, _, -, -, rfl⟩ | ⟨v, g, hi, -, -⟩ |
    ⟨_, _, -, -, rfl⟩ | ⟨-, _, rfl⟩
  · cases ht
  · cases ht
  · cases ht
  · cases ht
  · exact ⟨v, g, hi⟩
  · cases ht
  · cases ht

/-- The smallest transport of R99 is one of the looser ones. -/
theorem smallest_zeroWhenBusy (y : System) (e : Event) (h : e.smallest y = true) : e.zeroWhenBusy y = true := by
  cases e with
  | txDone => rfl
  | step w =>
    cases hd : decodeStep w <;> simp_all [Event.smallest, Event.zeroWhenBusy]

/-- A transport that is never ready while busy accepts no offer then. -/
theorem zeroWhenBusy_permitted (y : System) (e : Event) (h : e.zeroWhenBusy y = true) : e.permitted y = true := by
  cases e with
  | txDone => rfl
  | step w =>
    obtain ⟨t, ht, -⟩ := advance_step y w
    rw [permitted_step_iff ht]
    intro hb
    cases hr : Outputs.taken t.out with
    | none => rfl
    | some r =>
      obtain ⟨v, g, hi⟩ := pollRpt_of_taken ht hr
      simp [Event.zeroWhenBusy, hi, hb] at h

end Sys2Proof.Machine
end

