-- ==== Sys2Proof/Laws/PerInstr.lean ====
section
/-! SUPPORT. Statements made for every instruction, one lemma a constructor. -/

namespace Sys2Proof.Laws.RoundTrip

/-- Decoding the encoded instruction gives it back, whatever its operands, when it is well formed. -/
def Statement (i : Instr) : Prop := i.wellFormed = true → decode (encode i) = .ok i

theorem reset : Statement .reset := fun _ => by
  rw [encode, decode_step, decodeStep_packStep]; rfl

theorem idle : Statement .idle := fun _ => by
  rw [encode, decode_step, decodeStep_packStep]; rfl

theorem pollTest (v h : RawWord) : Statement (.pollTest v h) := fun _ => by
  rw [encode, decode_step, decodeStep_packStep]; rfl

theorem pollRpt (v h : RawWord) (r : Bool) : Statement (.pollRpt v h r) := fun _ => by
  rw [encode, decode_step, decodeStep_packStep]; rfl

theorem decode (raw : RawWord) : Statement (.decode raw) := fun _ => rfl

theorem orient (o : Bool) (c : IndexCode) : Statement (.orient o c) := fun wf =>
  (decode_ok_iff _ _).2 ⟨congrArg₂ Instr.orient
    ((BitVec.getLsbD_append (i := 4)).trans (by cases o <;> rfl)) (extractLsb'_append_low (BitVec.ofBool o) c), wf⟩

theorem axismap (c : IndexCode) : Statement (.axismap c) := fun wf => (decode_ok_iff _ _).2 ⟨rfl, wf⟩

theorem dist (c : IndexCode) : Statement (.dist c) := fun wf => (decode_ok_iff _ _).2 ⟨rfl, wf⟩

theorem select (v h : IndexCode) : Statement (.select v h) := fun wf =>
  (decode_ok_iff _ _).2 ⟨congrArg₂ Instr.select (extractLsb'_append_high v h) (extractLsb'_append_low v h), wf⟩

theorem ledmap (c : IndexCode) : Statement (.ledmap c) := fun wf => (decode_ok_iff _ _).2 ⟨rfl, wf⟩

theorem changed (n p : Report) : Statement (.changed n p) := fun wf =>
  (decode_ok_iff _ _).2 ⟨congrArg₂ Instr.changed
    ((reportAt_append_high (packReport n) p).trans (reportAt_packReport n))
    (reportAt_append_low (packReport n) p), wf⟩

theorem gate (r : Bool) (n p : Report) : Statement (.gate r n p) := fun wf => by
  refine (decode_ok_iff _ _).2 ⟨?_, wf⟩
  have hn := (reportAt_append_high (BitVec.ofBool r ++ packReport n) p).trans (reportAt_append_low _ n)
  have hp := reportAt_append_low (BitVec.ofBool r ++ packReport n) p
  have hr : (BitVec.ofBool r ++ packReport n ++ packReport p).getLsbD 32 = r := by
    rw [BitVec.getLsbD_append, BitVec.getLsbD_append]
    cases r <;> simp
  exact congr (congrArg₂ Instr.gate hr hn) hp

end Sys2Proof.Laws.RoundTrip
end

