-- ==== Sys2Proof/Tests/Slice0.lean ====
section
/-! SUPPORT. Tests, each expected result taken from the spec's own examples and tables (the section is named), and
for each statement with hypotheses a concrete case that meets them. -/

namespace Sys2Proof.Tests

open Sys2Proof Sys2Proof.Machine Sys2Proof.Claims

/-- The reset state with a given PreviousReport. -/
def holding (x y : AxisValue) : State := { State.reset with prevX := x, prevY := y }

/-- The outcome is a next state of which `p` holds. -/
def nextIs (o : Host.Outcome State Fault Refusal) (p : State → Bool) : Bool :=
  match o with
  | .next s => p s
  | _ => false

/-- The outcome is a refusal with this reason. -/
def refusedFor (o : Host.Outcome State Fault Refusal) (r : Refusal) : Bool :=
  match o with
  | .refused q => q == r
  | _ => false

/-- The decoder's answer is this instruction. -/
def decodesTo (w : InputWord) (i : Instr) : Bool :=
  match decode w with
  | .ok j => j == i
  | .error _ => false

/-- The configuration of 95_test_vectors.md's conventions with a given policy. -/
def plain (p : LedPolicy) : Config := { orientV := false, orientH := false, ledInReportMode := p }

/-! Well-formedness: one ill-formed term for each check (R42), and the boundary codes. -/

theorem test_orient_reserved_ill_formed : (Instr.orient true 12#4).wellFormed = false := by decide
theorem test_axismap_reserved_ill_formed : (Instr.axismap 13#4).wellFormed = false := by decide
theorem test_dist_reserved_ill_formed : (Instr.dist 14#4).wellFormed = false := by decide
theorem test_select_vertical_reserved_ill_formed : (Instr.select 12#4 0#4).wellFormed = false := by decide
theorem test_select_horizontal_reserved_ill_formed : (Instr.select 0#4 14#4).wellFormed = false := by decide
theorem test_ledmap_reserved_ill_formed : (Instr.ledmap 12#4).wellFormed = false := by decide
theorem test_axismap_end_codes_well_formed :
    (Instr.axismap 11#4).wellFormed = true ∧ (Instr.axismap 15#4).wellFormed = true := by decide

/-! Decoding: one word for each constructor, written out from R39 and R41 or printed in 30_encoding.md R44 and
95_test_vectors.md section 2.6. -/

theorem test_decode_reset : decodesTo (.step 0x8FFFFFF#28) .reset = true := by decide
theorem test_decode_reset_wins_over_poll : decodesTo (.step 0xCFF7FFF#28) .reset = true := by decide
theorem test_decode_idle : decodesTo (.step 0x0FFFFFF#28) .idle = true := by decide
theorem test_decode_idle_other_inputs_set : decodesTo (.step 0x3000000#28) .idle = true := by decide
theorem test_decode_pollTest :
    decodesTo (.step 0b0110111111110111111111111110#28) (.pollTest 0xFF7#12 0xFFE#12) = true := by decide
theorem test_decode_pollTest_ignores_ready :
    decodesTo (.step 0x7FF7FFF#28) (.pollTest 0xFF7#12 0xFFF#12) = true := by decide
theorem test_decode_pollRpt_ready :
    decodesTo (.step 0b0101111111110111111111111110#28) (.pollRpt 0xFF7#12 0xFFE#12 true) = true := by decide
theorem test_decode_pollRpt_not_ready :
    decodesTo (.step 0x4FFFEFF#28) (.pollRpt 0xFFF#12 0xEFF#12 false) = true := by decide
theorem test_decode_decode : decodesTo (.decode 0b111111110111#12) (.decode 0xFF7#12) = true := by decide
theorem test_decode_orient : decodesTo (.orient 0b10011#5) (.orient true 3#4) = true := by decide
theorem test_decode_axismap : decodesTo (.axismap 0b1111#4) (.axismap 15#4) = true := by decide
theorem test_decode_dist : decodesTo (.dist 0b1011#4) (.dist 11#4) = true := by decide
theorem test_decode_select : decodesTo (.select 0b01111111#8) (.select 7#4 15#4) = true := by decide
theorem test_decode_ledmap : decodesTo (.ledmap 0b0011#4) (.ledmap 3#4) = true := by decide
theorem test_decode_changed :
    decodesTo (.changed 0b01000101100000001000000000010111#32)
      (.changed ⟨128#8, 69#8⟩ ⟨23#8, 128#8⟩) = true := by decide
theorem test_decode_gate :
    decodesTo (.gate 0b101000101100000001000000000010111#33)
      (.gate true ⟨128#8, 69#8⟩ ⟨23#8, 128#8⟩) = true := by decide
theorem test_decode_reserved_rejected : decode (.axismap 0b1100#4) = .error (.reservedIndex 12#4) := rfl
theorem test_decode_select_second_reserved_rejected :
    decode (.select 0b00001110#8) = .error (.reservedIndex 14#4) := rfl

/-- The words of R44's examples. -/
theorem test_encode_idle : encode .idle = .step 0x0FFFFFF#28 := by decide
theorem test_encode_pollRpt : encode (.pollRpt 0xFF7#12 0xFFF#12 true) = .step 0x5FF7FFF#28 := by decide
theorem test_trace_pollTest_omitted_word :
    TraceLine.word (.pollTest (some 0xFF7#12) none) = some 0x6FF7FFF#28 := by decide
theorem test_trace_txDone_has_no_word :
    TraceLine.word .envTxDone = none ∧ TraceLine.event .envTxDone = some .txDone := by decide

theorem test_tableWord_reset : decodeTableWord 32 0x8000000 = some .reset := by decide
theorem test_tableWord_pollRpt : decodeTableWord 32 0x5FF7FFF = some (.pollRpt 0xFF7#12 0xFFF#12 true) := by decide
theorem test_tableWord_gate :
    decodeTableWord 40 0x145808017 = some (.gate true ⟨128#8, 69#8⟩ ⟨23#8, 128#8⟩) := by decide
theorem test_tableWord_four_bits_undecided : decodeTableWord 8 3 = none := by decide

/-! Steps from reset. -/

/-- Section 2.6, first row. -/
theorem test_step_reset :
    nextIs (step ((holding 208#8 23#8).withFetchWord 32 0x8FFFFFF)) (· == State.reset) = true := by decide

/-- A poll runs as the first instruction after reset. -/
theorem test_step_pollRpt_completes :
    nextIs (step (State.reset.withFetchWord 32 0x5FF7FFF)) (fun t => t.stimulus == []) = true := by decide

/-- A reserved code on a function's input word is refused (R42). -/
theorem test_step_reserved_refused :
    refusedFor (step (State.reset.placeInput (.ledmap 13#4))) (.reservedIndex 13#4) = true := by decide

/-! One or two cases for each instruction. -/

/-- Section 2.6. -/
theorem test_exec_reset :
    nextIs (exec .reset (holding 0#8 255#8)) (fun t => t.report == centreReport && !Outputs.ledWe t.out) = true := by
  decide
theorem test_exec_idle :
    nextIs (exec .idle (holding 128#8 69#8)) (fun t => t.prevY == 69#8 && !Outputs.txValid t.out) = true := by decide

/-- Program P3 steps 4 and 5 under the plain configuration: 11 outweighs 5, and a lone contact at 5 lights nothing. -/
theorem test_pollTest_horizontal_dominant :
    (pollTestUnder (plain .hold) 0xFDF#12 0x7FF#12 State.reset).out.ledWrite = some 0xF0#8 := by decide
theorem test_pollTest_lone_horizontal_at_5 :
    (pollTestUnder (plain .hold) 0xFFF#12 0xFDF#12 State.reset).out.ledWrite = some 0x00#8 := by decide

/-- V12: a rejected offer changes nothing, with its two bytes in the order of R22. -/
theorem test_pollRpt_rejected :
    let t := pollRptUnder (plain .hold) 0xFF7#12 0xFFF#12 false State.reset
    t.report = ⟨128#8, 128#8⟩ ∧ Outputs.txData t.out = some 0x4580#16 ∧ t.out.ledWrite = none := by decide

/-- P4, `ORIENT_V = 1`, `ORIENT_H = 0`, step 2. -/
theorem test_pollRpt_oriented :
    let t := pollRptUnder ⟨true, false, .update⟩ 0xEFF#12 0xFFB#12 true State.reset
    t.report = ⟨46#8, 69#8⟩ ∧ Outputs.txData t.out = some 0x452E#16 ∧ t.out.ledWrite = some 0x0F#8 := by decide

/-- V3. -/
theorem test_exec_decode_two_regions :
    nextIs (exec (.decode 0xBF7#12) State.reset) (fun t => t.out.value == some (.index (some 3))) = true := by decide
theorem test_exec_decode_top_bit_only :
    nextIs (exec (.decode 0x7FF#12) State.reset) (fun t => t.out.value == some (.index (some 11))) = true := by decide

/-- Section 2.1. -/
theorem test_exec_orient_complement :
    nextIs (exec (.orient true 3#4) State.reset) (fun t => t.out.value == some (.index (some 8))) = true := by decide
theorem test_exec_orient_no_contact :
    nextIs (exec (.orient true 15#4) State.reset) (fun t => t.out.value == some (.index none)) = true := by decide

/-- V4. -/
theorem test_exec_axismap_five :
    nextIs (exec (.axismap 5#4) State.reset) (fun t => t.out.value == some (.axis 116#8)) = true := by decide

/-- Section 2.3. -/
theorem test_exec_dist_asymmetric :
    nextIs (exec (.dist 11#4) State.reset) (fun t => t.out.value == some (.distance 6)) = true ∧
    nextIs (exec (.dist 0#4) State.reset) (fun t => t.out.value == some (.distance 5)) = true := by decide
theorem test_exec_select_tie_is_vertical :
    nextIs (exec (.select 7#4 3#4) State.reset) (fun t => t.out.value == some (.index (some 7))) = true := by decide
theorem test_exec_select_six_against_four :
    nextIs (exec (.select 4#4 6#4) State.reset) (fun t => t.out.value == some (.index (some 4))) = true := by decide

/-- Section 2.4, the whole table. -/
theorem test_ledMap_table :
    (List.finRange 12).map (fun k => ledMap (some k)) =
      [0x0F#8, 0x0F#8, 0x0F#8, 0x0E#8, 0x0C#8, 0x18#8, 0x18#8, 0x30#8, 0x70#8, 0xF0#8, 0xF0#8, 0xF0#8] := by decide
theorem test_exec_ledmap_no_contact :
    nextIs (exec (.ledmap 15#4) State.reset) (fun t => t.out.value == some (.mask 0#8)) = true := by decide

/-- Section 2.5. -/
theorem test_exec_changed_pair_is_ordered :
    nextIs (exec (.changed ⟨69#8, 162#8⟩ ⟨162#8, 69#8⟩) State.reset) (fun t => t.out.value == some (.bit true)) = true := by
  decide
theorem test_exec_gate_rejected :
    nextIs (exec (.gate false ⟨255#8, 0#8⟩ ⟨0#8, 255#8⟩) State.reset)
      (fun t => t.out.value == some (.gate ⟨some ⟨⟨255#8, 0#8⟩, false⟩, ⟨0#8, 255#8⟩⟩)) = true := by decide

/-- V6: masks have 0, 2, 2, 2, 3, 3, 4 and 4 bits set. -/
theorem test_popcount_of_masks : (ledMasks.map popcount) = [0, 2, 3, 4, 2, 2, 3, 4] := by decide

/-- R98: one contiguous region, and two. -/
theorem test_oneRegion : oneRegion 0xFC3#12 = true ∧ oneRegion 0xBF7#12 = false := by decide

/-! For each statement with hypotheses, a case that meets them. -/

/-- The report of a touch at vertical segment 3 alone is never (128, 128), under any configuration (R53). -/
theorem report_of_touch : (pollReport 0xFF7#12 0xFFF#12).y ≠ 128#8 := by
  have h : ∀ o : Bool, axisMap (orient o (positionDecode 0xFF7#12)) ≠ 128#8 := by decide
  exact h config.orientV

/-- The report of two untouched sliders is (128, 128), under any configuration. -/
theorem report_untouched : pollReport 0xFFF#12 0xFFF#12 = ⟨128#8, 128#8⟩ := by
  have h : ∀ o : Bool, axisMap (orient o (positionDecode 0xFFF#12)) = 128#8 := by decide
  exact congrArg₂ Report.mk (h config.orientH) (h config.orientV)

theorem touch_changes : newReport config 0xFF7#12 0xFFF#12 ≠ State.reset.report := fun e =>
  report_of_touch (congrArg Report.y e)

/-- The two polls of V11 and V12 from reset, with their offers. -/
theorem accepted_poll : ∃ t o, exec (.pollRpt 0xFF7#12 0xFFF#12 true) State.reset = .next t ∧
    t.out.trySend = some o ∧ t.report ≠ State.reset.report := by
  refine ⟨_, ⟨newReport config 0xFF7#12 0xFFF#12, true⟩, exec_pollRpt _ _ _ _, ?_, ?_⟩
  · rw [gate_accepted touch_changes]; exact rfl
  · rw [gate_accepted touch_changes]; exact touch_changes

theorem rejected_poll : ∃ t o, exec (.pollRpt 0xFF7#12 0xFFF#12 false) State.reset = .next t ∧
    t.out.trySend = some o := by
  refine ⟨_, ⟨newReport config 0xFF7#12 0xFFF#12, false⟩, exec_pollRpt _ _ _ _, ?_⟩
  rw [gate_rejected touch_changes]; exact rfl

theorem witness_ResetCentresPreviousReport : (0x8000000#28 : StepWord).getLsbD 27 = true := by decide

theorem witness_IdleKeepsPreviousReport :
    (0x3FFFFFF#28 : StepWord).getLsbD 27 = false ∧ (0x3FFFFFF#28 : StepWord).getLsbD 26 = false := by decide

theorem witness_StepRunsDecodedInput_placed :
    (State.reset.placeInput (.axismap 3#4)).stimulus = [.axismap 3#4] ∧
    decodesTo (.axismap 3#4) (.axismap 3#4) = true := by decide

theorem witness_StepRunsDecodedInput_drawn :
    State.reset.stimulus = [] ∧ ∃ i, decode (.step (Config.drawnStepWord State.reset.draws)) = .ok i :=
  ⟨rfl, _, decode_step _⟩

theorem witness_StepTakesOneInput_placed :
    nextIs (step (State.reset.placeInput (.step 0x0FFFFFF#28))) (fun _ => true) = true ∧
    (State.reset.placeInput (.step 0x0FFFFFF#28)).stimulus ≠ [] := by decide

theorem witness_StepTakesOneInput_drawn : State.reset.stimulus = [] ∧ ∃ t, step State.reset = .next t := by
  refine ⟨rfl, ?_⟩
  rw [step_of_decode (s := State.reset) (decode_step (Config.drawnStepWord 0))]
  exact exec_operation_completes _ _ (decodeStep_isOperation _)

theorem witness_StepNeverStopsOnStepWords :
    (∀ w, (State.reset.placeInput (.step 0x0000000#28)).stimulus.head? = some w → ∃ x, w = .step x) ∧
    step (State.reset.placeInput (.select 0xCF#8)) = .refused (.reservedIndex 12#4) :=
  ⟨fun _ h => ⟨0x0000000#28, (Option.some.inj h).symm⟩, rfl⟩

theorem witness_DecodeEncodeIsIdentity : (Instr.select 11#4 15#4).wellFormed = true := by decide

theorem witness_FunctionWordsEncodeBack :
    (InputWord.gate 0x1FFFFFFFF#33).isStep = false ∧
    decodesTo (.gate 0x1FFFFFFFF#33) (.gate true ⟨255#8, 255#8⟩ ⟨255#8, 255#8⟩) = true := by decide

theorem witness_DecodeAnswersOnlyWellFormed :
    decodesTo (.ledmap 11#4) (.ledmap 11#4) = true ∧ decode (.ledmap 12#4) = .error (.reservedIndex 12#4) :=
  ⟨by decide, rfl⟩

theorem witness_ReservedIndexIsRefused : (14#4 : IndexCode) = 12#4 ∨ (14#4 : IndexCode) = 13#4 ∨ (14#4 : IndexCode) = 14#4 := by
  decide

/-- `FF3` and `003` agree up to bit 2, the lowest cleared bit of both. -/
theorem witness_DecodeIgnoresHigherBits :
    exec (.decode 0xFF3#12) State.reset = .next (shows State.reset (.index (some 2))) ∧
    ∀ j : Fin 12, j ≤ 2 → (0xFF3#12 : RawWord).getLsbD j.val = (0x003#12 : RawWord).getLsbD j.val :=
  ⟨rfl, by decide⟩

theorem witness_AxisMapIsInjective :
    (10 : Fin 12) < 11 ∧ axisMap (some 11) = axisMap (some 11) := by decide

/-- V8: the tie of 7 and 3. -/
theorem witness_SelectPrefersLargerDistance : dist (some 7) = dist (some 3) := by decide

theorem witness_PortsCarryTheReport :
    ({ trySend := some ⟨⟨128#8, 69#8⟩, true⟩, ledWrite := some 0#8, value := none } : Outputs).trySend =
      some ⟨⟨128#8, 69#8⟩, true⟩ ∧ Outputs.quiet.trySend = none := by decide

theorem witness_PollTestWritesLedsOnly :
    (0x7FF7FFF#28 : StepWord).getLsbD 27 = false ∧ (0x7FF7FFF#28 : StepWord).getLsbD 26 = true ∧
    (0x7FF7FFF#28 : StepWord).getLsbD 25 = true := by decide

theorem witness_PollRptUnchangedOffersNothing :
    (pollReport 0xFFF#12 0xFFF#12).x = State.reset.prevX ∧ (pollReport 0xFFF#12 0xFFF#12).y = State.reset.prevY := by
  rw [report_untouched]; exact ⟨rfl, rfl⟩

theorem witness_PollRptAcceptedUpdates :
    (pollReport 0xFF7#12 0xFFF#12).x ≠ State.reset.prevX ∨ (pollReport 0xFF7#12 0xFFF#12).y ≠ State.reset.prevY :=
  .inr report_of_touch

theorem witness_PollRptRejectedKeeps :
    (pollReport 0xFF7#12 0xFFF#12).x ≠ State.reset.prevX ∨ (pollReport 0xFF7#12 0xFFF#12).y ≠ State.reset.prevY :=
  .inr report_of_touch

theorem witness_EndToEndScenario : State.reset.prevX = 128#8 ∧ State.reset.prevY = 128#8 := by decide

theorem witness_NoContactIsNeutral : (holding 0#8 255#8).report ≠ ⟨128#8, 128#8⟩ := by decide

theorem witness_UntouchedAfterResetOffersNothing :
    (holding 128#8 128#8).prevX = State.reset.prevX ∧ (holding 128#8 128#8).prevY = State.reset.prevY := by decide

theorem witness_AcceptedReportIsOfferedOnce : ∃ t o,
    exec (.pollRpt 0xFF7#12 0xFFF#12 true) State.reset = .next t ∧ t.out.trySend = some o := by
  obtain ⟨t, o, h, e, -⟩ := accepted_poll
  exact ⟨t, o, h, e⟩

theorem witness_RejectedReportIsOfferedAgain : ∃ t o,
    exec (.pollRpt 0xFF7#12 0xFFF#12 false) State.reset = .next t ∧ t.out.trySend = some o := rejected_poll

/-- The first outcome, a reset that changes PreviousReport. -/
theorem witness_PreviousReportHasOneWriter_reset :
    nextIs (step ((holding 0#8 0#8).placeInput (.step 0x8FFFFFF#28)))
      (fun t => t.report != ((holding 0#8 0#8).placeInput (.step 0x8FFFFFF#28)).report) = true := by decide

/-- The second, an accepted report. -/
theorem witness_PreviousReportHasOneWriter_accepted : ∃ t,
    step (State.reset.placeInput (.step 0x5FF7FFF#28)) = .next t ∧ t.report ≠ State.reset.report := by
  obtain ⟨t, o, h, -, ne⟩ := accepted_poll
  exact ⟨t, h, ne⟩

/-- A reporting-mode poll of the report already held meets the registers' clause. -/
theorem witness_ExecFrame_registers : (∃ t, exec (.pollRpt 0xFFF#12 0xFFF#12 true) State.reset = .next t) ∧
    (Instr.pollRpt 0xFFF#12 0xFFF#12 true ≠ .reset) ∧
    ∀ v h, Instr.pollRpt 0xFFF#12 0xFFF#12 true = .pollRpt v h true → pollReport v h = State.reset.report :=
  ⟨⟨_, rfl⟩, nofun, fun v h e => by cases e; exact report_untouched⟩

/-- `LEDMAP` evaluated alone meets the events' clauses, and `IDLE` the last one. -/
theorem witness_ExecFrame_events :
    nextIs (exec (.ledmap 11#4) State.reset) (fun _ => true) = true ∧
    (∀ v h r, Instr.ledmap 11#4 ≠ .pollRpt v h r) ∧ (∀ v h, Instr.ledmap 11#4 ≠ .pollTest v h) ∧
    (∃ t, exec .idle State.reset = .next t) ∧ Instr.idle.isOperation = true :=
  ⟨by decide, nofun, nofun, ⟨_, rfl⟩, rfl⟩

theorem inv_of_reset_with (w : InputWord) : (State.reset.placeInput w).Inv :=
  ⟨(by decide : (128#8 : AxisValue) ∈ axisValues), (by decide : (128#8 : AxisValue) ∈ axisValues), nofun, nofun⟩

theorem witness_StepKeepsInvariant : (State.reset.placeInput (.step 0x5FF7FFF#28)).Inv ∧
    ∃ t, step (State.reset.placeInput (.step 0x5FF7FFF#28)) = .next t :=
  ⟨inv_of_reset_with _, _, rfl⟩

theorem witness_OnlyPreviousReportCarriesOver :
    State.reset.prevX = (shows State.reset (.bit true)).prevX ∧
    State.reset.prevY = (shows State.reset (.bit true)).prevY ∧ State.reset ≠ shows State.reset (.bit true) := by decide

theorem witness_PreviousReportIsLastAccepted : ∃ log t,
    runInstrs [.idle, .pollRpt 0xFF7#12 0xFFF#12 true, .reset] (holding 0#8 0#8) = some (log, t) := ⟨_, _, rfl⟩

/-- An idle transport and a bank showing anything, at reset. -/
def atRest : System := { block := State.reset, busy := false, unfinished := 0, received := [], shown := 0x18#8 }

/-- The same, while a transmission is in flight. -/
def inFlight : System := { atRest with busy := true, unfinished := 1 }

/-- R99: an offer that is accepted while a transmission is in flight is what no transport does. -/
theorem test_busy_transport_accepts_no_offer : Event.permitted inFlight (.step 0x5FF7FFF#28) = false := by
  have h : exec (decodeStep 0x5FF7FFF#28) inFlight.block = .next _ := exec_pollRpt 0xFF7#12 0xFFF#12 true State.reset
  refine Bool.eq_false_iff.2 fun p => ?_
  have none_taken := (permitted_step_iff h).1 p rfl
  rw [gate_accepted touch_changes] at none_taken
  cases none_taken

/-- R99 and R75: `tx_ready = 1` while busy is permitted in a poll that offers nothing (P1, step 2), though a
transport that is never ready while busy does not show it; P5, step 3 is the smallest transport's rejection. -/
theorem test_busy_transport_may_show_ready_without_offer :
    Event.permitted inFlight (.step 0x5FFFFFF#28) = true ∧ Event.zeroWhenBusy inFlight (.step 0x5FFFFFF#28) = false ∧
    Event.smallest inFlight (.step 0x4FFBFFF#28) = true := by
  refine ⟨?_, by decide⟩
  have h : exec (decodeStep 0x5FFFFFF#28) inFlight.block = .next _ := exec_pollRpt 0xFFF#12 0xFFF#12 true State.reset
  have e : newReport config 0xFFF#12 0xFFF#12 = State.reset.report := report_untouched
  rw [permitted_step_iff h, e, gate_unchanged]
  intro _; rfl

/-- A run in which a report is accepted, a poll while busy finds `tx_ready = 1` without offering, and the transmission
completes. -/
theorem witness_AtMostOneReportInFlight :
    atRest.unfinished ≤ (if atRest.busy then 1 else 0) ∧
    atRest.permittedRun [.step 0x5FF7FFF#28, .step 0x5FF7FFF#28, .txDone] = true := by
  refine ⟨Nat.zero_le _, ?_⟩
  have p1 : Event.permitted atRest (.step 0x5FF7FFF#28) = true := rfl
  have p2 : Event.permitted (atRest.advance (.step 0x5FF7FFF#28)) (.step 0x5FF7FFF#28) = true := by
    obtain ⟨t, ht, a⟩ := advance_step atRest 0x5FF7FFF#28
    have e : exec (.pollRpt 0xFF7#12 0xFFF#12 true) State.reset = .next t := ht
    rw [exec_pollRpt, gate_accepted touch_changes] at e
    have h : exec (decodeStep 0x5FF7FFF#28) (atRest.observe t).block = .next _ :=
      exec_pollRpt 0xFF7#12 0xFFF#12 true (atRest.observe t).block
    cases e
    rw [a, permitted_step_iff h, observe_block, present_report, writeReport_report, gate_unchanged]
    intro _; rfl
  simp only [System.permittedRun, p1, p2, Bool.true_and]
  rfl

theorem witness_ReceivedReportsDiffer : atRest.received = [] ∧
    ∀ w, Event.step w ∈ [Event.step 0x5FF7FFF#28, .txDone, .step 0x5FFFFFF#28] → decodeStep w ≠ .reset := by
  refine ⟨rfl, fun w hw => ?_⟩
  simp only [List.mem_cons, Event.step.injEq, reduceCtorEq, List.not_mem_nil, or_false, false_or] at hw
  rcases hw with rfl | rfl <;> decide

end Sys2Proof.Tests
end

/-! Proofs of the family 00_scope.md: one step takes an input word and runs what it decodes to. -/

namespace Sys2Proof.Proofs

open Sys2Proof.Machine

/-- With a word placed, the step runs what that word decodes to and draws nothing. -/
theorem step_of_decode_placed {s : State} {w : InputWord} {ws : List InputWord} {i : Instr}
    (placed : s.stimulus = w :: ws) (dec : decode w = .ok i) :
    step s = exec i { s with stimulus := ws } := by
  have taken := takeInput_placed s w ws placed
  rw [step_of_decode (i := i) (by rw [taken, dec]), taken]

/-- With no word placed, the step runs what the drawn step word decodes to and counts the draw. -/
theorem step_of_decode_drawn {s : State} {i : Instr} (unplaced : s.stimulus = [])
    (dec : decode (.step (Config.drawnStepWord s.draws)) = .ok i) :
    step s = exec i { s with draws := s.draws + 1 } := by
  have taken := takeInput_drawn s unplaced
  rw [step_of_decode (i := i) (by rw [taken, dec]), taken]

/-- Settles O4, one clause for each way of taking an input. -/
theorem stepRunsDecodedInput : Obligations.StepRunsDecodedInput :=
  ⟨fun _ _ _ _ => step_of_decode_placed, fun _ _ => step_of_decode_drawn⟩

end Sys2Proof.Proofs

/-! Proofs of the family 10_state.md: PreviousReport is the block's only state, what a step keeps of it, and what
each instruction leaves unchanged. -/

namespace Sys2Proof.Proofs

open Sys2Proof.Machine Sys2Proof.Claims

/-! The invariant of every step (R11, R35, R68, R72, R73). -/

/-- (128, 128) is among the values that occur (R35), so the registers meet R11 at reset. -/
theorem axisCenter_mem : axisCenter ∈ axisValues := by decide

/-- Whatever the instruction, registers that hold values that occur are all it needs to leave a state that meets
the invariant: the outputs are written whole, so those of earlier steps do not matter. -/
theorem exec_keeps_inv {i : Instr} {s t : State} (hx : s.prevX ∈ axisValues) (hy : s.prevY ∈ axisValues)
    (h : exec i s = .next t) : t.Inv := by
  rcases exec_cases h with ⟨-, rfl⟩ | ⟨-, rfl⟩ | ⟨v, g, -, rfl⟩ | ⟨v, g, r, -, -, rfl⟩ | ⟨v, g, -, -, rfl⟩ |
    ⟨v, g, -, ne, rfl⟩ | ⟨-, _, rfl⟩
  · exact ⟨axisCenter_mem, axisCenter_mem, nofun, nofun⟩
  · exact ⟨hx, hy, nofun, nofun⟩
  · exact ⟨hx, hy, nofun, fun _ lit => Option.some.inj lit ▸ mask_mem config v g⟩
  · exact ⟨hx, hy, nofun, fun _ => ledAction_mem⟩
  · -- accepted: PreviousReport becomes the report offered (R72)
    refine ⟨newReport_x_mem config v g, newReport_y_mem config v g, fun _ offer => ?_, fun _ => ledAction_mem⟩
    cases offer
    exact ⟨newReport_x_mem config v g, newReport_y_mem config v g, iff_of_true rfl rfl⟩
  · -- rejected: PreviousReport still differs from the report offered (R73)
    refine ⟨hx, hy, fun _ offer => ?_, fun _ => ledAction_mem⟩
    cases offer
    exact ⟨newReport_x_mem config v g, newReport_y_mem config v g, iff_of_false Bool.false_ne_true ne.symm⟩
  · exact ⟨hx, hy, nofun, nofun⟩

/-- Settles O37: taking the input leaves the registers, and what runs then keeps the invariant. -/
theorem stepKeepsInvariant : Obligations.StepKeepsInvariant := by
  intro s t inv h
  obtain ⟨i, -, ran⟩ := step_next h
  exact exec_keeps_inv ((takeInput_prevX s).symm ▸ inv.prevX) ((takeInput_prevY s).symm ▸ inv.prevY) ran

/-- Settles O38: the registers are centred and no event is recorded. -/
theorem resetMeetsInvariant : Obligations.ResetMeetsInvariant :=
  ⟨axisCenter_mem, axisCenter_mem, nofun, nofun⟩

/-- Settles O1: the four fields are those R17 states. -/
theorem resetStateIsCentred : Obligations.ResetStateIsCentred := ⟨rfl, rfl, rfl, rfl⟩

/-! PreviousReport over a run (R10, R37, R117). -/

/-- An observed step other than `RESET` that offers nothing leaves the last report accepted. -/
theorem lastAfter_of_no_offer {i : Instr} {o : Outputs} (r : Report) (hi : i ≠ .reset) (ho : o.trySend = none) :
    lastAfter r (i, o) = r := by
  unfold lastAfter
  split
  · next isReset => exact absurd isReset hi
  · next offered _ => cases ho.symm.trans offered
  · rfl

/-- The one-instruction case: PreviousReport after an instruction is what its observed step makes of the one
before. -/
theorem exec_report_eq_lastAfter {i : Instr} {s t : State} (h : exec i s = .next t) :
    t.report = lastAfter s.report (i, t.out) := by
  rcases exec_cases h with ⟨rfl, rfl⟩ | ⟨rfl, rfl⟩ | ⟨_, _, rfl, rfl⟩ | ⟨_, _, _, rfl, -, rfl⟩ |
    ⟨_, _, rfl, -, rfl⟩ | ⟨_, _, rfl, -, rfl⟩ | ⟨function, _, rfl⟩
  · rfl
  · rfl
  · rfl
  · rfl
  · rfl
  · rfl
  · exact (lastAfter_of_no_offer _ (by rintro rfl; cases function) rfl).symm

/-- A run of at least one instruction is that instruction, observed, and then a run of the rest. -/
theorem runInstrs_cons_eq_some {i : Instr} {is : List Instr} {s t : State} {log : List (Instr × Outputs)}
    (h : runInstrs (i :: is) s = some (log, t)) :
    ∃ m rest, exec i s = .next m ∧ runInstrs is m = some (rest, t) ∧ log = (i, m.out) :: rest := by
  unfold runInstrs at h
  split at h
  · next m ran =>
    obtain ⟨⟨rest, u⟩, ranRest, e⟩ := Option.map_eq_some_iff.1 h
    cases e
    exact ⟨m, rest, ran, ranRest, rfl⟩
  · cases h
  · cases h

/-- Settles O43, by induction on the instructions, the start state left free. -/
theorem previousReportIsLastAccepted : Obligations.PreviousReportIsLastAccepted := by
  intro is
  induction is with
  | nil =>
    intro s t log h
    cases h
    rfl
  | cons i is ih =>
    intro s t log h
    obtain ⟨m, rest, ran, ranRest, rfl⟩ := runInstrs_cons_eq_some h
    calc t.report
      _ = rest.foldl lastAfter m.report := ih m t rest ranRest
      _ = rest.foldl lastAfter (lastAfter s.report (i, m.out)) := by rw [exec_report_eq_lastAfter ran]

/-! What a meaning can read and write: PreviousReport, and nothing else of the state (R10, R29). -/

/-- From every state that holds `p` as its PreviousReport the meaning writes the same report and presents the same
outputs, or it is refused for the same reason in every state. -/
def ReportDetermines (p : Report) (meaning : State → Host.Outcome State Fault Refusal) : Prop :=
  (∃ q o, ∀ s : State, s.report = p → meaning s = .next ((s.writeReport q).present o)) ∨
    ∃ r, ∀ s : State, meaning s = .refused r

/-- Showing a value writes the report back that was there. -/
theorem reportDetermines_presentValue (p : Report) (v : FunctionValue) : ReportDetermines p (presentValue v) :=
  .inl ⟨p, _, by rintro s rfl; rfl⟩

/-- Reading an index code looks at no state, so it adds nothing to what its meaning reads. -/
theorem reportDetermines_withIndex {p : Report} {f : SliderIndex → State → Host.Outcome State Fault Refusal}
    (c : IndexCode) (hf : ∀ k, ReportDetermines p (f k)) :
    ReportDetermines p fun s => withIndex c fun k => f k s := by
  cases hc : IndexCode.valid c with
  | true =>
    obtain ⟨k, rfl⟩ := exists_index_of_valid c hc
    simpa only [withIndex_codeOfIndex] using hf k
  | false => exact .inr ⟨_, fun s => withIndex_invalid c _ hc⟩

/-- PreviousReport determines what every instruction does. -/
theorem reportDetermines_exec (p : Report) (i : Instr) : ReportDetermines p (exec i) := by
  cases i with
  | reset => exact .inl ⟨_, _, fun s _ => exec_reset s⟩
  | idle => exact .inl ⟨p, _, by rintro s rfl; exact exec_idle s⟩
  | pollTest v h => exact .inl ⟨p, _, by rintro s rfl; exact exec_pollTest v h s⟩
  | pollRpt v h r =>
    let g := gate (newReport config v h) p r
    refine .inl ⟨g.next, { trySend := g.offer, ledWrite := ledAction config v h, value := none }, ?_⟩
    rintro s rfl
    exact exec_pollRpt v h r s
  | decode raw => exact reportDetermines_presentValue p _
  | orient o c => exact reportDetermines_withIndex c fun _ => reportDetermines_presentValue p _
  | axismap c => exact reportDetermines_withIndex c fun _ => reportDetermines_presentValue p _
  | dist c => exact reportDetermines_withIndex c fun _ => reportDetermines_presentValue p _
  | select v h =>
    exact reportDetermines_withIndex v fun _ => reportDetermines_withIndex h fun _ =>
      reportDetermines_presentValue p _
  | ledmap c => exact reportDetermines_withIndex c fun _ => reportDetermines_presentValue p _
  | changed n q => exact reportDetermines_presentValue p _
  | gate r n q => exact reportDetermines_presentValue p _

/-- Settles O40: equal registers are an equal PreviousReport, which determines both executions. -/
theorem onlyPreviousReportCarriesOver : Obligations.OnlyPreviousReportCarriesOver := by
  intro i s u hx hy
  have same : u.report = s.report := congrArg₂ Report.mk hx.symm hy.symm
  rcases reportDetermines_exec s.report i with ⟨q, o, completes⟩ | ⟨r, refused⟩
  · exact .inl ⟨_, _, completes s rfl, completes u same, rfl, rfl, rfl⟩
  · exact .inr ⟨r, refused s, refused u⟩

/-- Settles O39: the recorded outputs are no part of PreviousReport, and the new ones replace them whole. -/
theorem outputsAreNotState : Obligations.OutputsAreNotState := by
  intro i s o
  rcases reportDetermines_exec s.report i with ⟨q, p, completes⟩ | ⟨r, refused⟩
  · exact (completes { s with out := o } rfl).trans (completes s rfl).symm
  · exact (refused _).trans (refused s).symm

/-! The frame of an instruction, one lemma for each part of the state and of the outputs. -/

section frame
variable {i : Instr} {s t : State} (h : exec i s = .next t)
include h

/-- An instruction writes PreviousReport and the outputs and nothing else. -/
theorem exec_next_eq : t = (s.writeReport t.report).present t.out := by
  rcases reportDetermines_exec s.report i with ⟨q, o, completes⟩ | ⟨r, refused⟩
  · cases (completes s rfl).symm.trans h
    rfl
  · cases (refused s).symm.trans h

/-- The inputs placed are left as they are. -/
theorem exec_stimulus : t.stimulus = s.stimulus := (congrArg State.stimulus (exec_next_eq h) :)

/-- The count of draws is left as it is. -/
theorem exec_draws : t.draws = s.draws := (congrArg State.draws (exec_next_eq h) :)

/-- Only `RESET` and an accepted poll of a changed report write PreviousReport (R72, R79). -/
theorem exec_report_unchanged (notReset : i ≠ .reset)
    (notTaken : ∀ v g, i = .pollRpt v g true → newReport config v g = s.report) : t.report = s.report := by
  rcases exec_cases h with ⟨hi, -⟩ | ⟨-, rfl⟩ | ⟨_, _, -, rfl⟩ | ⟨_, _, _, -, -, rfl⟩ | ⟨v, g, hi, ne, -⟩ |
    ⟨_, _, -, -, rfl⟩ | ⟨-, _, rfl⟩
  · exact absurd hi notReset
  · rfl
  · rfl
  · rfl
  · exact absurd (notTaken v g hi) ne
  · rfl
  · rfl

/-- Only a reporting-mode poll makes an offer (R79, R80, R82). -/
theorem exec_trySend_none (notRpt : ∀ v g r, i ≠ .pollRpt v g r) : t.out.trySend = none := by
  rcases exec_cases h with ⟨-, rfl⟩ | ⟨-, rfl⟩ | ⟨_, _, -, rfl⟩ | ⟨v, g, r, hi, -⟩ | ⟨v, g, hi, -⟩ | ⟨v, g, hi, -⟩ |
    ⟨-, _, rfl⟩
  · rfl
  · rfl
  · rfl
  · exact absurd hi (notRpt v g r)
  · exact absurd hi (notRpt v g true)
  · exact absurd hi (notRpt v g false)
  · rfl

/-- Only a poll writes the LEDs (R79, R80). -/
theorem exec_ledWrite_none (notTest : ∀ v g, i ≠ .pollTest v g) (notRpt : ∀ v g r, i ≠ .pollRpt v g r) :
    t.out.ledWrite = none := by
  rcases exec_cases h with ⟨-, rfl⟩ | ⟨-, rfl⟩ | ⟨v, g, hi, -⟩ | ⟨v, g, r, hi, -⟩ | ⟨v, g, hi, -⟩ | ⟨v, g, hi, -⟩ |
    ⟨-, _, rfl⟩
  · rfl
  · rfl
  · exact absurd hi (notTest v g)
  · exact absurd hi (notRpt v g r)
  · exact absurd hi (notRpt v g true)
  · exact absurd hi (notRpt v g false)
  · rfl

/-- The four operations show no function value (log entry 5). -/
theorem exec_value_none (operation : i.isOperation = true) : t.out.value = none := by
  rcases exec_cases h with ⟨-, rfl⟩ | ⟨-, rfl⟩ | ⟨_, _, -, rfl⟩ | ⟨_, _, _, -, -, rfl⟩ | ⟨_, _, -, -, rfl⟩ |
    ⟨_, _, -, -, rfl⟩ | ⟨function, -⟩
  · rfl
  · rfl
  · rfl
  · rfl
  · rfl
  · rfl
  · exact absurd (operation.symm.trans function) Bool.noConfusion

end frame

/-- Settles O36, from one frame lemma for each part. -/
theorem execFrame : Obligations.ExecFrame := by
  intro i s t h
  refine ⟨exec_stimulus h, exec_draws h, fun notReset notTaken => ?_, exec_trySend_none h, exec_ledWrite_none h,
    exec_value_none h⟩
  have kept : t.report = s.report := exec_report_unchanged h notReset notTaken
  exact ⟨congrArg Report.x kept, congrArg Report.y kept⟩

end Sys2Proof.Proofs

/-! Proofs of the family 20_memory.md: each step takes one input word (R24), and what the output ports carry (R21,
R22). -/

namespace Sys2Proof.Proofs

open Sys2Proof.Machine Sys2Proof.Claims

/-! What a step does to the inputs: no instruction touches them, so all of it is in taking the word. -/

/-- Taking a word that was placed draws nothing. -/
theorem takeInput_draws_placed {s : State} (placed : s.stimulus ≠ []) : s.takeInput.2.draws = s.draws := by
  obtain ⟨w, ws, isCons⟩ := List.exists_cons_of_ne_nil placed
  rw [takeInput_placed s w ws isCons]

/-- With no word placed, the one word taken is drawn and counted. -/
theorem takeInput_draws_drawn {s : State} (unplaced : s.stimulus = []) : s.takeInput.2.draws = s.draws + 1 := by
  rw [takeInput_drawn s unplaced]

/-- A step that completes leaves the words placed after the one it takes. -/
theorem step_stimulus {s t : State} (h : step s = .next t) : t.stimulus = s.stimulus.tail := by
  obtain ⟨i, -, ran⟩ := step_next h
  exact (exec_stimulus ran).trans (takeInput_stimulus s)

/-- A step that completes has drawn what taking its input drew. -/
theorem step_draws {s t : State} (h : step s = .next t) : t.draws = s.takeInput.2.draws := by
  obtain ⟨i, -, ran⟩ := step_next h
  exact exec_draws ran

/-- Settles O5, one clause for each way of taking an input. -/
theorem stepTakesOneInput : Obligations.StepTakesOneInput := by
  intro s t h
  constructor
  · intro placed
    exact ⟨step_stimulus h, (step_draws h).trans (takeInput_draws_placed placed)⟩
  · intro unplaced
    have nothingLeft : t.stimulus = [] := by rw [step_stimulus h, unplaced, List.tail_nil]
    exact ⟨nothingLeft, (step_draws h).trans (takeInput_draws_drawn unplaced)⟩

/-! The output ports. -/

/-- The report on the 16-bit port: y in the high byte, x in the low one (R22). -/
theorem portWord_toNat (r : Report) : (Report.portWord r).toNat = r.y.toNat * 256 + r.x.toNat := by
  have bytes : (Report.portWord r).toNat = r.y.toNat <<< 8 ||| r.x.toNat := BitVec.toNat_append r.y r.x
  rw [bytes, ← Nat.shiftLeft_add_eq_or_of_lt r.x.isLt, Nat.shiftLeft_eq]

section ports
variable {o : Outputs}

/-- An offer drives `tx_valid` (R21). -/
theorem txValid_of_offer {t : TrySend} (offer : o.trySend = some t) : Outputs.txValid o = true :=
  Option.isSome_of_eq_some offer

/-- An offer puts its report on `tx_data` (R22). -/
theorem txData_of_offer {t : TrySend} (offer : o.trySend = some t) :
    Outputs.txData o = some (Report.portWord t.report) :=
  Option.map_eq_some_iff.2 ⟨t, offer, rfl⟩

/-- Without an offer `tx_valid` is 0 (R21). -/
theorem txValid_of_no_offer (quiet : o.trySend = none) : Outputs.txValid o = false :=
  Option.isSome_eq_false_iff.2 (Option.isNone_iff_eq_none.2 quiet)

/-- Without an offer `tx_data` has no value (R86). -/
theorem txData_of_no_offer (quiet : o.trySend = none) : Outputs.txData o = none :=
  Option.map_eq_none_iff.2 quiet

end ports

/-- Settles O24: the two transmit ports under an offer and without one, then the two ports of the LED bank. -/
theorem portsCarryTheReport : Obligations.PortsCarryTheReport := by
  refine ⟨fun o t offer => ?_, fun o quiet => ?_, fun o => ?_⟩
  · exact ⟨txValid_of_offer offer, _, txData_of_offer offer, portWord_toNat t.report⟩
  · exact ⟨txValid_of_no_offer quiet, txData_of_no_offer quiet⟩
  · exact Option.isSome_iff_exists

end Sys2Proof.Proofs

/-! Proofs of the family 30_encoding.md: step words and function words against the instructions they stand for
(R39 to R41), and what becomes of a reserved index code (R42). -/

namespace Sys2Proof.Proofs

open Sys2Proof.Machine Sys2Proof.Laws

/-- Settles O8, one round trip for each row of the table. -/
theorem decodeEncodeIsIdentity : Obligations.DecodeEncodeIsIdentity := by
  intro i
  cases i with
  | reset => exact RoundTrip.reset
  | idle => exact RoundTrip.idle
  | pollTest v h => exact RoundTrip.pollTest v h
  | pollRpt v h r => exact RoundTrip.pollRpt v h r
  | decode raw => exact RoundTrip.decode raw
  | orient o c => exact RoundTrip.orient o c
  | axismap c => exact RoundTrip.axismap c
  | dist c => exact RoundTrip.dist c
  | select v h => exact RoundTrip.select v h
  | ledmap c => exact RoundTrip.ledmap c
  | changed n p => exact RoundTrip.changed n p
  | gate r n p => exact RoundTrip.gate r n p

/-! Step words by the weights of their fields (R39). -/

/-- The upper part of an append weighs `2 ^ n`, the width of the lower part. -/
theorem toNat_append_eq_add {m n : Nat} (a : BitVec m) (b : BitVec n) :
    (a ++ b).toNat = a.toNat * 2 ^ n + b.toNat := by
  rw [BitVec.toNat_append, ← Nat.shiftLeft_add_eq_or_of_lt b.isLt, Nat.shiftLeft_eq]

section packed
variable (rst poll testMode txReady : Bool) (v h : RawWord)

/-- The number a packed step word stands for: each field at the weight of its lowest bit in R39. -/
theorem packStep_toNat : (packStep rst poll testMode txReady v h).toNat =
    rst.toNat * 2 ^ 27 + poll.toNat * 2 ^ 26 + testMode.toNat * 2 ^ 25 + txReady.toNat * 2 ^ 24 +
      v.toNat * 2 ^ 12 + h.toNat := by
  simp only [packStep, toNat_append_eq_add, BitVec.toNat_ofBool]
  omega

/-- A packed step word, written as the number of its fields. -/
theorem packStep_eq_ofNat : packStep rst poll testMode txReady v h =
    BitVec.ofNat 28 (rst.toNat * 2 ^ 27 + poll.toNat * 2 ^ 26 + testMode.toNat * 2 ^ 25 +
      txReady.toNat * 2 ^ 24 + v.toNat * 2 ^ 12 + h.toNat) := by
  rw [← packStep_toNat, BitVec.ofNat_toNat, BitVec.setWidth_eq]

end packed

/-- Settles O7: the word is the packed step word, whose operation is known. -/
theorem stepWordSelectsOperation : Obligations.StepWordSelectsOperation := by
  intro rst poll testMode txReady v h
  rw [← packStep_eq_ofNat, decode_step, decodeStep_packStep]
  cases poll <;> rfl

/-! The functions' input words: no bit is lost when their fields are read (R41). -/

/-- A single bit as a field of width 1. -/
theorem ofBool_getLsbD {n : Nat} (w : BitVec n) (k : Nat) : BitVec.ofBool (w.getLsbD k) = w.extractLsb' k 1 := by
  apply BitVec.eq_of_getLsbD_eq
  intro j hj
  obtain rfl : j = 0 := by omega
  simp

/-- A report read from 16 bits packs into the same 16 bits (R37). -/
theorem packReport_reportAt {n : Nat} (w : BitVec n) (lo : Nat) :
    packReport (reportAt w lo) = w.extractLsb' lo 16 :=
  BitVec.extractLsb'_append_extractLsb'_eq_extractLsb' rfl

/-- Two fields that fill a word append to that word. -/
theorem extractLsb'_append_extractLsb'_eq_self {m n : Nat} (w : BitVec (m + n)) :
    w.extractLsb' n m ++ w.extractLsb' 0 n = w :=
  (BitVec.extractLsb'_append_extractLsb'_eq_extractLsb' (Nat.zero_add n).symm).trans BitVec.extractLsb'_eq_self

/-- Encoding the fields of a function's input word gives the word, reserved index codes included. -/
theorem encode_readFields (w : InputWord) (isFunction : w.isStep = false) : encode (readFields w) = w := by
  cases w with
  | step w => cases isFunction
  | decode w => rfl
  | orient w =>
    rw [readFields, encode, ofBool_getLsbD, extractLsb'_append_extractLsb'_eq_self (m := 1) (n := 4) w]
  | axismap w => rfl
  | dist w => rfl
  | select w => exact congrArg InputWord.select (extractLsb'_append_extractLsb'_eq_self (m := 4) (n := 4) w)
  | ledmap w => rfl
  | changed w =>
    rw [readFields, encode, packReport_reportAt, packReport_reportAt,
      extractLsb'_append_extractLsb'_eq_self (m := 16) (n := 16) w]
  | gate w =>
    have upper : w.extractLsb' 32 1 ++ w.extractLsb' 16 16 = w.extractLsb' 16 17 :=
      BitVec.extractLsb'_append_extractLsb'_eq_extractLsb' rfl
    rw [readFields, encode, ofBool_getLsbD, packReport_reportAt, packReport_reportAt, upper,
      extractLsb'_append_extractLsb'_eq_self (m := 17) (n := 16) w]

/-- Settles O9: what a word decodes to is its fields. -/
theorem functionWordsEncodeBack : Obligations.FunctionWordsEncodeBack := by
  intro w i isFunction dec
  obtain ⟨rfl, -⟩ := (decode_ok_iff w i).1 dec
  exact encode_readFields w isFunction

/-! Reserved index codes (R42). -/

/-- The code a rejection names is 12, 13 or 14. -/
theorem decode_error_reserved {w : InputWord} {r : Reject} (rejected : decode w = .error r) :
    r = .reservedIndex 12#4 ∨ r = .reservedIndex 13#4 ∨ r = .reservedIndex 14#4 := by
  obtain ⟨c, rfl, stands⟩ := (decode_error_iff w r).1 rejected
  have reserved := (valid_eq_false_iff c).1 (reservedCode_invalid (readFields w) c stands)
  simpa only [Reject.reservedIndex.injEq] using reserved

/-- Settles O10: an answer is well formed, and a rejection names a reserved code. -/
theorem decodeAnswersOnlyWellFormed : Obligations.DecodeAnswersOnlyWellFormed := by
  refine ⟨fun w i dec => ((decode_ok_iff w i).1 dec).2, fun w => ?_⟩
  cases dec : decode w with
  | ok i => exact .inl ⟨i, rfl⟩
  | error r => exact .inr (by simpa only [Except.error.injEq] using decode_error_reserved dec)

/-- Settles O11: the decoder evaluates each word to the instruction of its layout. -/
theorem sampleWordsDecode : Obligations.SampleWordsDecode :=
  ⟨rfl, rfl, rfl, rfl, rfl, rfl, rfl⟩

/-- Settles O12: each of the five functions reads its operand with `withIndex`, which refuses a reserved code. -/
theorem reservedIndexIsRefused : Obligations.ReservedIndexIsRefused := by
  intro s c reserved
  have refuses (f : SliderIndex → Host.Outcome State Fault Refusal) :
      withIndex c f = .refused (.reservedIndex c) := withIndex_invalid c f ((valid_eq_false_iff c).2 reserved)
  refine ⟨fun _ => refuses _, refuses _, refuses _, refuses _, fun _ => refuses _, fun i => ?_⟩
  exact (withIndex_codeOfIndex i _).trans (refuses _)

end Sys2Proof.Proofs

/-! Proofs of the family 40_position_decoder.md: which contact `DECODE` finds (R48) and how `ORIENT` complements it
(R50). -/

namespace Sys2Proof.Proofs

open Sys2Proof.Machine Sys2Proof.Claims

/-! `DECODE` (R48). -/

/-- `DECODE` completes in every state and shows the decoded position. -/
theorem exec_decode (raw : RawWord) (s : State) :
    exec (.decode raw) s = .next (shows s (.index (positionDecode raw))) := rfl

/-- A function evaluated alone shows one value (log entry 5). -/
theorem next_shows_inj {s : State} {v w : FunctionValue} :
    (.next (shows s v) : Host.Outcome State Fault Refusal) = .next (shows s w) ↔ v = w := by
  simp [shows]

/-- The value that `DECODE` shows is the decoded position. -/
theorem exec_decode_eq_iff {raw : RawWord} {s : State} {i : SliderIndex} :
    exec (.decode raw) s = .next (shows s (.index i)) ↔ positionDecode raw = i := by
  rw [exec_decode, next_shows_inj, FunctionValue.index.injEq]

/-- Settles O13: the position decoded is either no contact or the lowest cleared bit. -/
theorem decodeFindsLowestCleared : Obligations.DecodeFindsLowestCleared := by
  intro raw s
  cases found : positionDecode raw with
  | none => exact .inl ⟨(positionDecode_eq_none_iff raw).1 found, exec_decode_eq_iff.2 found⟩
  | some k =>
    obtain ⟨cleared, lowerSet⟩ := (positionDecode_eq_some_iff raw k).1 found
    exact .inr ⟨k, cleared, lowerSet, exec_decode_eq_iff.2 found⟩

/-- A word that agrees with `a` up to the lowest cleared bit of `a` has the same lowest cleared bit (R48). -/
theorem positionDecode_eq_of_agree {a b : RawWord} {k : Fin 12} (found : positionDecode a = some k)
    (agree : ∀ j : Fin 12, j ≤ k → a.getLsbD j.val = b.getLsbD j.val) : positionDecode b = some k := by
  obtain ⟨cleared, lowerSet⟩ := (positionDecode_eq_some_iff a k).1 found
  refine (positionDecode_eq_some_iff b k).2 ⟨?_, fun j below => ?_⟩
  · exact (agree k le_rfl).symm.trans cleared
  · exact (agree j below.le).symm.trans (lowerSet j below)

/-- Settles O14: both words decode to `k`. -/
theorem decodeIgnoresHigherBits : Obligations.DecodeIgnoresHigherBits := by
  intro a b k s shown agree
  have foundB := positionDecode_eq_of_agree (exec_decode_eq_iff.1 shown) agree
  exact (exec_decode_eq_iff.2 foundB).trans shown.symm

/-! `ORIENT` (R50). -/

/-- `ORIENT` of the code of an index completes in every state and shows that index oriented. -/
theorem exec_orient_codeOfIndex (o : Bool) (i : SliderIndex) (s : State) :
    exec (.orient o (codeOfIndex i)) s = .next (shows s (.index (orient o i))) :=
  withIndex_codeOfIndex i _

/-- A contact stays a contact, at `k` or at `11 - k` (R50). -/
theorem orient_some (o : Bool) (k : Fin 12) :
    ∃ j : Fin 12, j.val = (if o then 11 - k.val else k.val) ∧ orient o (some k) = some j := by
  cases o with
  | false => exact ⟨k, rfl, orient_false _⟩
  | true => exact ⟨k.rev, (Fin.val_rev k).trans (Nat.add_sub_add_right 11 1 k.val), orient_true_some k⟩

/-- Settles O15: a contact, no contact (D6), and the involution. -/
theorem orientComplements : Obligations.OrientComplements := by
  refine fun s o => ⟨fun k => ?_, ?_, orient_orient o⟩
  · obtain ⟨j, place, oriented⟩ := orient_some o k
    exact ⟨j, place, oriented ▸ exec_orient_codeOfIndex o (some k) s⟩
  · exact orient_none o ▸ exec_orient_codeOfIndex o none s

end Sys2Proof.Proofs

/-! Proofs of the family 41_axis_mapper.md: what `AXISMAP` shows for each index (R53, R54) and the order of its table
(R56). -/

namespace Sys2Proof.Proofs

open Sys2Proof.Machine Sys2Proof.Claims

/-- `AXISMAP` of the code of an index completes in every state and shows that index's axis value (R53). -/
theorem exec_axismap_codeOfIndex (i : SliderIndex) (s : State) :
    exec (.axismap (codeOfIndex i)) s = .next (shows s (.axis (axisMap i))) :=
  withIndex_codeOfIndex i _

/-- The axis value of a contact is the literal printed at its place (R54). -/
theorem axisMap_some_eq_printed (k : Fin 12) :
    axisMap (some k) = BitVec.ofNat 8 (printedTable.getD k.val 0) := by
  revert k; decide

/-- Settles O16: a contact shows its printed literal, and no contact the centre. -/
theorem axisMapReadsTable : Obligations.AxisMapReadsTable := by
  refine fun s => ⟨exec_axismap_codeOfIndex none s, fun k => ?_⟩
  exact axisMap_some_eq_printed k ▸ exec_axismap_codeOfIndex (some k) s

/-- The table is strictly increasing (R56), which holds since each entry is below the next one. -/
theorem strictMono_toNat_axisMap_some : StrictMono fun k : Fin 12 => (axisMap (some k)).toNat :=
  Fin.strictMono_iff_lt_succ.2 (by decide)

/-- Settles O17: the order of the table, injectivity with the centre among the values, and the values that occur. -/
theorem axisMapIsInjective : Obligations.AxisMapIsInjective :=
  ⟨fun _ _ below => BitVec.lt_def.2 (strictMono_toNat_axisMap_some below), fun _ _ => axisMap_injective, axisMap_mem⟩

end Sys2Proof.Proofs

/-! Proofs of the family 42_dominant_axis.md: the distance that `DIST` shows (R57) and the index that `SELECT` prefers
(R58 to R60). -/

namespace Sys2Proof.Proofs

open Sys2Proof.Machine Sys2Proof.Claims

/-! `DIST` (R57). -/

/-- `DIST` of the code of an index completes in every state and shows that index's distance. -/
theorem exec_dist_codeOfIndex (i : SliderIndex) (s : State) :
    exec (.dist (codeOfIndex i)) s = .next (shows s (.distance (Machine.dist i))) :=
  withIndex_codeOfIndex i _

/-- Settles O18: no contact has distance 0, and a contact has the formula's by definition. -/
theorem distFollowsFormula : Obligations.DistFollowsFormula :=
  fun s => ⟨exec_dist_codeOfIndex none s, fun k => exec_dist_codeOfIndex (some k) s⟩

/-! `SELECT` (R58 to R60). -/

/-- `SELECT` of the codes of two indices completes in every state and shows the one selected. -/
theorem exec_select_codeOfIndex (v h : SliderIndex) (s : State) :
    exec (.select (codeOfIndex v) (codeOfIndex h)) s = .next (shows s (.index (select v h))) :=
  (withIndex_codeOfIndex v _).trans (withIndex_codeOfIndex h _)

/-- On a tie the vertical index is selected (R59), since the comparison is strict. -/
theorem select_of_dist_eq {v h : SliderIndex} (tie : Machine.dist v = Machine.dist h) : select v h = v :=
  (select_eq v h).trans (if_neg tie.ge.not_gt)

/-- Settles O19: the comparison, the tie, and no contact on both sliders as the tie at distance 0 (R60). -/
theorem selectPrefersLargerDistance : Obligations.SelectPrefersLargerDistance := by
  have untouched : select none none = none := select_of_dist_eq rfl
  refine ⟨fun s v h => ?_, fun _ _ => select_of_dist_eq, untouched, ?_⟩
  · exact select_eq v h ▸ exec_select_codeOfIndex v h s
  · rw [untouched]; rfl

end Sys2Proof.Proofs

/-! Proofs of the family 43_led_encoder.md: which bits `LEDMAP` lights (R63 to R66) and the bounds and the symmetry of
its masks (R68). -/

namespace Sys2Proof.Proofs

open Sys2Proof.Machine Sys2Proof.Claims

/-! Which bits a mask has. -/

/-- A run of bits has exactly the bits from `lo` to below `lo + n`. -/
theorem getLsbD_bitRun_iff (lo n : Nat) {b : Nat} (hb : b < 8) :
    (bitRun lo n).getLsbD b = true ↔ lo ≤ b ∧ b < lo + n := by
  simp only [bitRun, BitVec.getLsbD_ofNat, Nat.testBit_mul_two_pow, Nat.testBit_two_pow_sub_one, Bool.and_eq_true,
    decide_eq_true_eq]
  omega

/-- Two to four LEDs are lit outside the centre zone (R65). -/
theorem litCount_bounds (d : Nat) : 2 ≤ litCount d ∧ litCount d ≤ 4 := by
  unfold litCount
  split <;> omega

/-- The lit bits of a contact (R63, R66). The run downward ends at bit 3 since `N` is at most 4. -/
theorem getLsbD_ledMap_some_iff (k : Fin 12) {b : Nat} (hb : b < 8) :
    (ledMap (some k)).getLsbD b = true ↔
      if k.val = 5 ∨ k.val = 6 then b = 3 ∨ b = 4
      else if k.val < 5 then 4 - litCount (ledDistance k) ≤ b ∧ b ≤ 3
      else 4 ≤ b ∧ b ≤ 3 + litCount (ledDistance k) := by
  have capped := (litCount_bounds (ledDistance k)).2
  simp only [ledMap]
  split_ifs with centre low <;> rw [getLsbD_bitRun_iff _ _ hb] <;> omega

/-! `LEDMAP` (R63). -/

/-- `LEDMAP` of the code of an index completes in every state and shows that index's mask. -/
theorem exec_ledmap_codeOfIndex (i : SliderIndex) (s : State) :
    exec (.ledmap (codeOfIndex i)) s = .next (shows s (.mask (ledMap i))) :=
  withIndex_codeOfIndex i _

/-- Settles O20: the distance and the count that the rules give are the model's by definition. -/
theorem ledMapLightsBarGraph : Obligations.LedMapLightsBarGraph :=
  ⟨exec_ledmap_codeOfIndex none, fun s k =>
    ⟨ledMap (some k), exec_ledmap_codeOfIndex (some k) s, fun _ hb => getLsbD_ledMap_some_iff k hb⟩⟩

/-! The bounds and the symmetry (R68). -/

/-- A contact lights bit 3 or bit 4, the innermost bit of its side. -/
theorem ledMap_some_lights_inner_bit (k : Fin 12) :
    (ledMap (some k)).getLsbD 3 = true ∨ (ledMap (some k)).getLsbD 4 = true := by
  have lit := (litCount_bounds (ledDistance k)).1
  rw [getLsbD_ledMap_some_iff k (by decide), getLsbD_ledMap_some_iff k (by decide)]
  split_ifs <;> omega

/-- Only no contact leaves the LEDs dark. -/
theorem ledMap_eq_zero_iff (i : SliderIndex) : ledMap i = 0#8 ↔ i = none := by
  cases i with
  | none => exact iff_of_true rfl rfl
  | some k =>
    refine iff_of_false (fun dark => ?_) (Option.some_ne_none k)
    simpa [dark] using ledMap_some_lights_inner_bit k

/-- The distance is measured from the nearer edge of the centre zone (R64), so a contact and its complement have the
same one. -/
theorem ledDistance_rev (k : Fin 12) : ledDistance k.rev = ledDistance k := by
  simp only [ledDistance, Fin.val_rev]
  split_ifs <;> omega

/-- Complementing a contact swaps the two sides and keeps the count, which mirrors the mask. -/
theorem getLsbD_ledMap_rev (k : Fin 12) (b : Fin 8) :
    (ledMap (some k.rev)).getLsbD b.val = (ledMap (some k)).getLsbD b.rev.val := by
  rw [Bool.eq_iff_iff, getLsbD_ledMap_some_iff _ b.isLt, getLsbD_ledMap_some_iff _ b.rev.isLt, ledDistance_rev]
  simp only [Fin.val_rev]
  split_ifs <;> omega

/-- Settles O21: the masks that occur and their count, the dark one, and the mirror. -/
theorem ledMapIsBoundedAndMirrors : Obligations.LedMapIsBoundedAndMirrors :=
  ⟨fun i => ⟨ledMap_mem i, popcount_ledMap i⟩, ledMap_eq_zero_iff, getLsbD_ledMap_rev⟩

end Sys2Proof.Proofs

/-! Proofs of the family 44_report_gate.md: what `CHANGED` and `GATE` answer (R70 to R73), what a reporting-mode poll
does with the answer (R83, R84), and which offers follow one another (R77). -/

namespace Sys2Proof.Proofs

open Sys2Proof.Machine Sys2Proof.Claims

/-! `CHANGED` (R70). -/

/-- Two reports differ when a coordinate does. -/
theorem report_ne_iff (n p : Report) : n ≠ p ↔ n.x ≠ p.x ∨ n.y ≠ p.y := by
  obtain ⟨nx, ny⟩ := n
  obtain ⟨px, py⟩ := p
  rw [ne_eq, Report.mk.injEq, not_and_or]

/-- `CHANGED` completes in every state and shows its bit. -/
theorem exec_changed (n p : Report) (s : State) :
    exec (.changed n p) s = .next (shows s (.bit (changed n p))) := rfl

/-- Settles O22: the bit compares the reports, which is comparing both coordinates. -/
theorem changedComparesBothCoordinates : Obligations.ChangedComparesBothCoordinates :=
  fun s n p => ⟨changed n p, exec_changed n p s, (changed_iff n p).trans (report_ne_iff n p)⟩

/-! `GATE` (R71 to R73). -/

/-- A changed report is offered with the answer `tx_ready`, which decides the next PreviousReport. -/
theorem gate_changed {n p : Report} (differs : n ≠ p) (r : Bool) :
    gate n p r = ⟨some ⟨n, r⟩, if r then n else p⟩ := by
  cases r with
  | false => exact gate_rejected differs
  | true => exact gate_accepted differs

/-- `GATE` completes in every state and shows its result. -/
theorem exec_gate (r : Bool) (n p : Report) (s : State) :
    exec (.gate r n p) s = .next (shows s (.gate (gate n p r))) := rfl

/-- Settles O23, one clause for equal and one for different reports. -/
theorem gateOffersOnChange : Obligations.GateOffersOnChange := by
  refine fun s n p r => ⟨gate n p r, exec_gate r n p s, ?_, fun differs => ?_⟩
  · rintro rfl
    rw [gate_unchanged]
    exact ⟨rfl, rfl⟩
  · rw [gate_changed differs]
    exact ⟨rfl, rfl⟩

/-! `POLL.RPT` (R83): the whole next state when the report is unchanged and when it changed. -/

section poll
variable {v g : RawWord} {s : State}

/-- An unchanged report is not offered, and PreviousReport stays, whatever `tx_ready`. -/
theorem exec_pollRpt_unchanged (same : newReport config v g = s.report) (r : Bool) :
    exec (.pollRpt v g r) s =
      .next (s.present { trySend := none, ledWrite := ledAction config v g, value := none }) := by
  rw [exec_pollRpt, same, gate_unchanged, writeReport_self]

/-- A changed report is offered, and becomes PreviousReport exactly when `tx_ready` is 1. -/
theorem exec_pollRpt_changed (differs : newReport config v g ≠ s.report) (r : Bool) :
    exec (.pollRpt v g r) s =
      .next ((s.writeReport (if r then newReport config v g else s.report)).present
        { trySend := some ⟨newReport config v g, r⟩, ledWrite := ledAction config v g, value := none }) := by
  rw [exec_pollRpt, gate_changed differs]

/-- A poll that offered found a changed report, offered that one, and made it PreviousReport exactly when
`tx_ready` was 1. -/
theorem pollRpt_offered {r : Bool} {t : State} {o : TrySend} (h : exec (.pollRpt v g r) s = .next t)
    (offered : t.out.trySend = some o) :
    newReport config v g ≠ s.report ∧ o = ⟨newReport config v g, r⟩ ∧
      t.report = if r then newReport config v g else s.report := by
  rcases eq_or_ne (newReport config v g) s.report with same | differs
  · rw [exec_pollRpt_unchanged same] at h
    cases h
    cases offered
  · rw [exec_pollRpt_changed differs] at h
    cases h
    cases offered
    exact ⟨differs, rfl, rfl⟩

end poll

/-- The statements' LED event of a reporting-mode poll is the model's (R84). -/
theorem reportModeLed_eq_ledAction (v h : RawWord) : reportModeLed v h = ledAction config v h := rfl

/-- Settles O26: equal coordinates are an equal report. -/
theorem pollRptUnchangedOffersNothing : Obligations.PollRptUnchangedOffersNothing := by
  intro v h r s sameX sameY
  rw [reportModeLed_eq_ledAction]
  exact exec_pollRpt_unchanged (congrArg₂ Report.mk sameX sameY) r

/-- Settles O27, the changed report at `tx_ready = 1`. -/
theorem pollRptAcceptedUpdates : Obligations.PollRptAcceptedUpdates := by
  intro v h s differs
  rw [reportModeLed_eq_ledAction]
  exact exec_pollRpt_changed ((report_ne_iff _ s.report).2 differs) true

/-- Settles O28, the changed report at `tx_ready = 0`. -/
theorem pollRptRejectedKeeps : Obligations.PollRptRejectedKeeps := by
  intro v h s differs
  rw [reportModeLed_eq_ledAction]
  exact exec_pollRpt_changed ((report_ne_iff _ s.report).2 differs) false

/-! Which offers follow one another (R77). -/

/-- Untouched sliders report the centre, whatever their orientation (R53, D6). -/
theorem newReport_untouched (cfg : Config) : newReport cfg 0xFFF#12 0xFFF#12 = centreReport := by
  have noContact := (positionDecode_eq_none_iff 0xFFF#12).2 rfl
  simp only [newReport, vIdx, hIdx, noContact, orient_none]
  rfl

/-- Settles O31: the report of untouched sliders is the reset value of PreviousReport. -/
theorem untouchedAfterResetOffersNothing : Obligations.UntouchedAfterResetOffersNothing := by
  intro r s resetX resetY
  have centred : s.report = centreReport := congrArg₂ Report.mk resetX resetY
  exact ⟨_, exec_pollRpt_unchanged ((newReport_untouched config).trans centred.symm) r, rfl, rfl, rfl⟩

/-- Settles O32: the accepted report is PreviousReport at the second poll, which therefore finds no change. -/
theorem acceptedReportIsOfferedOnce : Obligations.AcceptedReportIsOfferedOnce := by
  intro v h r s t o first offered
  obtain ⟨-, rfl, held⟩ := pollRpt_offered first offered
  exact ⟨_, exec_pollRpt_unchanged held.symm r, rfl, congrArg Report.x held, congrArg Report.y held⟩

/-- Settles O33: the second poll finds the PreviousReport that the first one found, so the report still differs. -/
theorem rejectedReportIsOfferedAgain : Obligations.RejectedReportIsOfferedAgain := by
  intro v h r s t o first offered
  obtain ⟨differs, rfl, kept⟩ := pollRpt_offered first offered
  have differsAgain : newReport config v h ≠ t.report := kept ▸ differs
  exact ⟨congrArg Report.x kept, congrArg Report.y kept, _, exec_pollRpt_changed differsAgain r, rfl⟩

/-! The reports received over a run (R77, R99). -/

section taken
variable {i : Instr} {s t : State} (h : exec i s = .next t)
include h

/-- A report that the transport takes differs from PreviousReport and becomes it. -/
theorem exec_taken {r : Report} (taken : Outputs.taken t.out = some r) : r ≠ s.report ∧ t.report = r := by
  obtain ⟨v, g, rfl⟩ := pollRpt_of_taken h taken
  obtain ⟨differs, offer, held⟩ := pollRpt_offered h ((taken_eq_some_iff _ _).1 taken)
  cases offer
  exact ⟨differs, held⟩

/-- An instruction other than `RESET` of which the transport takes nothing keeps PreviousReport. -/
theorem exec_not_taken (notReset : i ≠ .reset) (nothing : Outputs.taken t.out = none) : t.report = s.report := by
  refine exec_report_unchanged h notReset fun v g poll => ?_
  by_contra differs
  rw [poll, exec_pollRpt_changed differs] at h
  cases h
  cases nothing

end taken

/-- What a run without `RESET` keeps, `p` being PreviousReport at its start: of `p` and the reports received after
it no two neighbours are equal, and the last of them is PreviousReport. -/
structure ReceivedSince (p : Report) (y : System) : Prop where
  differ : List.IsChain (· ≠ ·) (p :: y.received)
  latest : y.block.report = y.received.getLast?.getD p

/-- It holds where nothing has been received. -/
theorem receivedSince_of_received_nil {y : System} (none_received : y.received = []) :
    ReceivedSince y.block.report y := by
  refine ⟨?_, ?_⟩ <;> rw [none_received]
  · exact List.isChain_singleton _
  · rfl

/-- Observing a step keeps it: a report taken differs from the last one received, which is PreviousReport, and
becomes both. -/
theorem receivedSince_observe {p : Report} {y : System} {i : Instr} {t : State} (inv : ReceivedSince p y)
    (h : exec i y.block = .next t) (notReset : i ≠ .reset) : ReceivedSince p (y.observe t) := by
  rcases observe_cases y t with ⟨r, offer, observed⟩ | ⟨nothing, observed⟩ <;> rw [observed]
  · obtain ⟨differs, held⟩ := exec_taken h ((taken_eq_some_iff _ _).2 offer)
    refine ⟨?_, ?_⟩
    · have fresh : ∀ q ∈ (p :: y.received).getLast?, ∀ x ∈ [r].head?, q ≠ x := by
        rw [List.getLast?_cons, ← inv.latest]
        rintro _ ⟨⟩ _ ⟨⟩
        exact differs.symm
      exact inv.differ.append (List.isChain_singleton r) fresh
    · simpa using held
  · exact ⟨inv.differ, (exec_not_taken h notReset nothing).trans inv.latest⟩

/-- Every event keeps it, except a step word that selects `RESET`. -/
theorem receivedSince_advance {p : Report} {y : System} (inv : ReceivedSince p y) (e : Event)
    (notReset : ∀ w, e = .step w → decodeStep w ≠ .reset) : ReceivedSince p (y.advance e) := by
  cases e with
  | step w =>
    obtain ⟨t, ran, observed⟩ := advance_step y w
    exact observed ▸ receivedSince_observe inv ran (notReset w rfl)
  | txDone => exact ⟨inv.differ, inv.latest⟩

/-- Settles O47, by induction on the events. -/
theorem receivedReportsDiffer : Obligations.ReceivedReportsDiffer := by
  intro y events none_received notReset
  have kept : ReceivedSince y.block.report (y.run events) :=
    List.foldlRecOn events System.advance (receivedSince_of_received_nil none_received)
      fun _ inv e mem => receivedSince_advance inv e fun w step => notReset w (step ▸ mem)
  exact ⟨kept.differ, kept.latest⟩

end Sys2Proof.Proofs

/-! Proofs of the family 45_poll.md: which step words select each of the four operations (R40, R79 to R83), what the
operations do, and that a step of the block is the function `STEP` of R87. -/

namespace Sys2Proof.Proofs

open Sys2Proof.Machine Sys2Proof.Claims

/-! The step words that select each operation, by the control bits of R39. -/

section selects
variable {w : StepWord}

/-- `rst = 1` selects `RESET`, whatever the other fields (D3). -/
theorem decodeStep_of_rst (rst : w.getLsbD 27 = true) : decodeStep w = .reset := by
  simp only [decodeStep, StepWord.rst, rst]

/-- `rst = poll = 0` selects `IDLE`. -/
theorem decodeStep_of_no_poll (rst : w.getLsbD 27 = false) (poll : w.getLsbD 26 = false) : decodeStep w = .idle := by
  simp only [decodeStep, StepWord.rst, StepWord.poll, rst, poll]

/-- A poll with `test_mode = 1` is `POLL.TEST`, whatever `tx_ready`. -/
theorem decodeStep_of_test (rst : w.getLsbD 27 = false) (poll : w.getLsbD 26 = true) (test : w.getLsbD 25 = true) :
    decodeStep w = .pollTest (w.extractLsb' 12 12) (w.extractLsb' 0 12) := by
  simp only [decodeStep, StepWord.rst, StepWord.poll, StepWord.testMode, rst, poll, test, StepWord.vRaw, StepWord.hRaw]

/-- A poll with `test_mode = 0` is `POLL.RPT`. -/
theorem decodeStep_of_report (rst : w.getLsbD 27 = false) (poll : w.getLsbD 26 = true) (test : w.getLsbD 25 = false) :
    decodeStep w = .pollRpt (w.extractLsb' 12 12) (w.extractLsb' 0 12) (w.getLsbD 24) := by
  simp only [decodeStep, StepWord.rst, StepWord.poll, StepWord.testMode, rst, poll, test, StepWord.vRaw, StepWord.hRaw,
    StepWord.txReady]

end selects

/-! The whole step as one function (R87). -/

/-- With a step word placed, the step runs the operation that the word selects. -/
theorem step_placeInput_step (s : State) (w : StepWord) :
    step (s.placeInput (.step w)) = exec (decodeStep w) s :=
  step_of_decode_placed (placeInput_stimulus s _) (decode_step w)

/-- In reporting mode `STEP` compares the reports itself; what it answers is what the gate answers (R71). -/
theorem wholeStep_report (cfg : Config) (p : Report) (r : Bool) (v h : RawWord) :
    wholeStep cfg p false true false r v h =
      ⟨(gate (newReport cfg v h) p r).next, (gate (newReport cfg v h) p r).offer, ledAction cfg v h⟩ := by
  have compares : wholeStep cfg p false true false r v h =
      if newReport cfg v h = p then ⟨p, none, ledAction cfg v h⟩
      else if r then ⟨newReport cfg v h, some ⟨newReport cfg v h, true⟩, ledAction cfg v h⟩
      else ⟨p, some ⟨newReport cfg v h, false⟩, ledAction cfg v h⟩ := rfl
  rcases eq_or_ne (newReport cfg v h) p with same | differs
  · rw [compares, if_pos same, same, gate_unchanged]
  · rw [compares, if_neg differs, gate_changed differs]
    cases r with
    | false => rfl
    | true => rfl

/-- Settles O34, one case for each operation that the word can select. -/
theorem stepMatchesWholeStep : Obligations.StepMatchesWholeStep := by
  intro s w
  refine (step_placeInput_step s w).trans ?_
  cases rst : w.getLsbD 27 with
  | true => exact decodeStep_of_rst rst ▸ exec_reset s
  | false =>
    cases poll : w.getLsbD 26 with
    | false => exact decodeStep_of_no_poll rst poll ▸ exec_idle s
    | true =>
      cases test : w.getLsbD 25 with
      | true => exact decodeStep_of_test rst poll test ▸ exec_pollTest _ _ s
      | false =>
        rw [decodeStep_of_report rst poll test, wholeStep_report]
        exact exec_pollRpt _ _ _ s

/-! The operations that never offer (R79, R80, R82). -/

/-- Settles O2: the meaning of `RESET`, and the words that select it. -/
theorem resetCentresPreviousReport : Obligations.ResetCentresPreviousReport :=
  ⟨exec_reset, fun w rst => decodeStep_of_rst rst ▸ decode_step w⟩

/-- Settles O3: the meaning of `IDLE`, and the words that select it. -/
theorem idleKeepsPreviousReport : Obligations.IdleKeepsPreviousReport :=
  ⟨exec_idle, fun w rst poll => decodeStep_of_no_poll rst poll ▸ decode_step w⟩

/-- Settles O25: the meaning of `POLL.TEST`, and the words that select it, none of which fixes `tx_ready`. -/
theorem pollTestWritesLedsOnly : Obligations.PollTestWritesLedsOnly :=
  ⟨exec_pollTest, fun w rst poll test => decodeStep_of_test rst poll test ▸ decode_step w⟩

/-! The LED action of a reporting-mode poll (R84). -/

section policy
variable {cfg : Config} {v h : RawWord}

/-- `HOLD` writes nothing. -/
theorem ledAction_of_hold (policy : cfg.ledInReportMode = .hold) : ledAction cfg v h = none := by
  simp only [ledAction, policy]

/-- `UPDATE` writes the mask of a test-mode poll. -/
theorem ledAction_of_update (policy : cfg.ledInReportMode = .update) : ledAction cfg v h = some (mask cfg v h) := by
  simp only [ledAction, policy]

/-- `OFF` writes mask 0. -/
theorem ledAction_of_off (policy : cfg.ledInReportMode = .off) : ledAction cfg v h = some 0#8 := by
  simp only [ledAction, policy]

end policy

/-- Settles O42: the LED event is `ledAction`, which reads neither the state nor `tx_ready`, and the gate's operands
are the new report and PreviousReport, neither of which reads the policy. -/
theorem ledActionIndependentOfGate : Obligations.LedActionIndependentOfGate :=
  ⟨fun v h r q s u => ⟨_, _, exec_pollRpt v h r s, exec_pollRpt v h q u, rfl⟩, fun _ _ _ _ _ _ => ⟨rfl, rfl, rfl⟩⟩

/-! The end-to-end scenario: vertical bit 3 alone cleared (95_test_vectors.md V14, V16). -/

section scenario
variable (cfg : Config)

/-- Vertical bit 3 is contact 3, and contact 8 when the slider is complemented (R50). -/
theorem vIdx_bit_three : vIdx cfg 0xFF7#12 = some (if cfg.orientV then 8 else 3) := by
  have found : positionDecode 0xFF7#12 = some 3 := by decide
  rw [vIdx, found]
  cases cfg.orientV with
  | false => rfl
  | true => rfl

/-- An untouched horizontal slider has no contact, whatever its orientation (D6). -/
theorem hIdx_untouched : hIdx cfg 0xFFF#12 = none := by
  rw [hIdx, (positionDecode_eq_none_iff 0xFFF#12).2 rfl, orient_none]

/-- The report is (128, 69), or (128, 185) when the vertical slider is complemented. -/
theorem newReport_bit_three :
    newReport cfg 0xFF7#12 0xFFF#12 = ⟨128#8, if cfg.orientV then 185#8 else 69#8⟩ := by
  rw [newReport, vIdx_bit_three, hIdx_untouched]
  cases cfg.orientV with
  | false => rfl
  | true => rfl

/-- The vertical contact, at distance 2 or 3, is selected over no contact, and its mask is `0E` or `70`. -/
theorem mask_bit_three : mask cfg 0xFF7#12 0xFFF#12 = if cfg.orientV then 0x70#8 else 0x0E#8 := by
  rw [mask, selIdx, vIdx_bit_three, hIdx_untouched]
  cases cfg.orientV with
  | false => rfl
  | true => rfl

/-- The report differs from the centre under either orientation. -/
theorem newReport_bit_three_ne_centre : newReport cfg 0xFF7#12 0xFFF#12 ≠ centreReport := by
  rw [newReport_bit_three]
  cases cfg.orientV with
  | false => decide
  | true => decide

/-- The report on the port: 0x4580, or 0xB980 when the vertical slider is complemented (R22). -/
theorem portWord_bit_three :
    Report.portWord (newReport cfg 0xFF7#12 0xFFF#12) = if cfg.orientV then 0xB980#16 else 0x4580#16 := by
  rw [newReport_bit_three]
  cases cfg.orientV with
  | false => rfl
  | true => rfl

end scenario

/-- Settles O29: the report differs from PreviousReport, so the ready transport accepts it. -/
theorem endToEndScenario : Obligations.EndToEndScenario := by
  intro s centredX centredY
  have centred : s.report = centreReport := congrArg₂ Report.mk centredX centredY
  have differs : newReport config 0xFF7#12 0xFFF#12 ≠ s.report := centred ▸ newReport_bit_three_ne_centre config
  have report := newReport_bit_three config
  refine ⟨_, exec_pollRpt_changed differs true, congrArg Report.x report, congrArg Report.y report, ?_, ?_⟩
  · exact congrArg some (portWord_bit_three config)
  · cases policy : config.ledInReportMode with
    | hold => exact ledAction_of_hold policy
    | update => exact (ledAction_of_update policy).trans (congrArg some (mask_bit_three config))
    | off => exact ledAction_of_off policy

end Sys2Proof.Proofs

/-! Proofs of the family 60_exceptions.md: the block has no exception and refuses only reserved index codes (R88), no
contact is the neutral position (R89), and what the closed system keeps (R92, R99, R100). -/

namespace Sys2Proof.Proofs

open Sys2Proof.Machine

/-! When a step stops (R88). -/

section stops
variable {s : State}

/-- A step that takes a step word completes. -/
theorem step_completes_of_step_word {w : StepWord} (taken : s.takeInput.1 = .step w) : ∃ t, step s = .next t := by
  obtain ⟨t, completes⟩ := exec_operation_completes (decodeStep w) s.takeInput.2 (decodeStep_isOperation w)
  have dec : decode s.takeInput.1 = .ok (decodeStep w) := taken ▸ decode_step w
  exact ⟨t, (step_of_decode dec).trans completes⟩

/-- The word taken is a step word when the first word placed, if there is one, is: a word drawn always is. -/
theorem takeInput_step_word (placed : ∀ w, s.stimulus.head? = some w → ∃ x, w = .step x) :
    ∃ x, s.takeInput.1 = .step x := by
  cases first : s.stimulus with
  | nil => exact ⟨_, congrArg Prod.fst (takeInput_drawn s first)⟩
  | cons w ws =>
    obtain ⟨x, rfl⟩ := placed w (first ▸ List.head?_cons)
    exact ⟨x, congrArg Prod.fst (takeInput_placed s _ ws first)⟩

/-- A rejected word ends the step with its refusal. -/
theorem step_of_decode_error {r : Reject} (rejected : decode s.takeInput.1 = .error r) :
    step s = .refused (refusalOf r) := by
  simp only [step, rejected]

/-- Only the decoder makes a step refuse: what it answers is well formed and completes. -/
theorem step_refused {r : Refusal} (h : step s = .refused r) :
    ∃ e, decode s.takeInput.1 = .error e ∧ r = refusalOf e := by
  cases dec : decode s.takeInput.1 with
  | ok i =>
    obtain ⟨t, completes⟩ := exec_wellFormed_completes i s.takeInput.2 ((decode_ok_iff _ i).1 dec).2
    cases h.symm.trans ((step_of_decode dec).trans completes)
  | error e =>
    cases h.symm.trans (step_of_decode_error dec)
    exact ⟨e, rfl, rfl⟩

end stops

/-- Settles O6: there is no fault to raise, step words complete, and a refusal names the code the decoder rejected. -/
theorem stepNeverStopsOnStepWords : Obligations.StepNeverStopsOnStepWords := by
  refine ⟨nofun, fun s placed => ?_, fun s r refused => ?_⟩
  · obtain ⟨x, taken⟩ := takeInput_step_word placed
    exact step_completes_of_step_word taken
  · obtain ⟨e, rejected, rfl⟩ := step_refused refused
    rcases decode_error_reserved rejected with rfl | rfl | rfl
    · exact ⟨12#4, rfl, .inl rfl⟩
    · exact ⟨13#4, rfl, .inr (.inl rfl)⟩
    · exact ⟨14#4, rfl, .inr (.inr rfl)⟩

/-! Neither slider touched (R89). -/

/-- An untouched vertical slider has no contact, whatever its orientation (D6). -/
theorem vIdx_untouched (cfg : Config) : vIdx cfg 0xFFF#12 = none := by
  rw [vIdx, (positionDecode_eq_none_iff 0xFFF#12).2 rfl, orient_none]

/-- Untouched sliders light nothing: with no contact on either, none is selected (R60). -/
theorem mask_untouched (cfg : Config) : mask cfg 0xFFF#12 0xFFF#12 = 0#8 := by
  rw [mask, selIdx, vIdx_untouched, hIdx_untouched, select_of_dist_eq rfl]
  rfl

/-- Settles O30: the mask and the report of untouched sliders, and the report accepted when it is a change. -/
theorem noContactIsNeutral : Obligations.NoContactIsNeutral := by
  intro s
  have neutral : newReport config 0xFFF#12 0xFFF#12 = centreReport := newReport_untouched config
  refine ⟨⟨_, exec_pollTest _ _ s, congrArg some (mask_untouched config)⟩, neutral, fun touched => ?_⟩
  have differs : newReport config 0xFFF#12 0xFFF#12 ≠ s.report := neutral ▸ touched.symm
  exact ⟨_, exec_pollRpt_changed differs true, congrArg Report.x neutral, congrArg Report.y neutral⟩

/-! The closed system (R92, R99, R100). -/

/-- Settles O44: the completion writes only the transport's own bits. -/
theorem completionTouchesNoBlockState : Obligations.CompletionTouchesNoBlockState :=
  fun _ => ⟨rfl, rfl, rfl, rfl⟩

/-- Settles O45: the step is observed, and the bank then shows the mask it wrote or what it showed before. -/
theorem ledBankShowsLastWrite : Obligations.LedBankShowsLastWrite := by
  intro y w
  obtain ⟨t, ran, observed⟩ := advance_step y w
  refine ⟨t, ran, ?_⟩
  rw [observed, observe_shown]
  refine ⟨observe_block y t, fun m wrote => ?_, fun quiet => ?_⟩
  · rw [wrote, Option.getD_some]
  · rw [quiet, Option.getD_none]

/-- What a transport that rejects while busy keeps: nothing is unfinished unless it is busy, and then at most one
report is. -/
def UnfinishedOnlyWhileBusy (y : System) : Prop := y.unfinished ≤ if y.busy then 1 else 0

section transport
variable {y : System} (inv : UnfinishedOnlyWhileBusy y)
include inv

/-- Busy or not, at most one report is unfinished. -/
theorem unfinished_le_one : y.unfinished ≤ 1 := by
  refine Nat.le_trans inv ?_
  split <;> decide

/-- Nothing is unfinished while the transport is not busy. -/
theorem unfinished_eq_zero (idle : y.busy = false) : y.unfinished = 0 := by
  simpa [UnfinishedOnlyWhileBusy, idle] using inv

/-- Observing a step keeps it when nothing is taken while busy: the report that is taken is then the only one. -/
theorem unfinishedOnlyWhileBusy_observe {t : State} (rejects : y.busy = true → Outputs.taken t.out = none) :
    UnfinishedOnlyWhileBusy (y.observe t) := by
  rcases observe_cases y t with ⟨r, offer, observed⟩ | ⟨-, observed⟩ <;> rw [observed]
  · have taken : Outputs.taken t.out = some r := (taken_eq_some_iff _ _).2 offer
    have idle : y.busy = false := by
      rw [← Bool.not_eq_true]
      intro busy
      cases taken.symm.trans (rejects busy)
    exact (congrArg (· + 1) (unfinished_eq_zero inv idle)).le
  · exact inv

/-- Every permitted event keeps it. -/
theorem unfinishedOnlyWhileBusy_advance {e : Event} (permitted : e.permitted y = true) :
    UnfinishedOnlyWhileBusy (y.advance e) := by
  cases e with
  | step w =>
    obtain ⟨t, ran, observed⟩ := advance_step y w
    exact observed ▸ unfinishedOnlyWhileBusy_observe inv ((permitted_step_iff ran).1 permitted)
  | txDone => exact Nat.zero_le _

end transport

/-- Every permitted run keeps it, by induction on the events, the start left free. -/
theorem unfinishedOnlyWhileBusy_run {y : System} (events : List Event) (inv : UnfinishedOnlyWhileBusy y)
    (permitted : y.permittedRun events = true) : UnfinishedOnlyWhileBusy (y.run events) := by
  induction events generalizing y with
  | nil => exact inv
  | cons e es ih =>
    obtain ⟨first, rest⟩ := (Bool.and_eq_true _ _).mp permitted
    exact ih (unfinishedOnlyWhileBusy_advance inv first) rest

/-- Settles O46, from what the transport keeps over the run. -/
theorem atMostOneReportInFlight : Obligations.AtMostOneReportInFlight :=
  fun _ events inv permitted => unfinished_le_one (unfinishedOnlyWhileBusy_run events inv permitted)

end Sys2Proof.Proofs

/-! Proofs of the family 70_reset_and_hazards.md: what writes PreviousReport (R105, R111), and that an offer does not
wait for `tx_ready` (R114). -/

namespace Sys2Proof.Proofs

open Sys2Proof.Machine

/-- An instruction that changes PreviousReport is `RESET`, which centres it, or a reporting-mode poll whose accepted
offer it becomes. -/
theorem exec_report_changed {i : Instr} {s t : State} (h : exec i s = .next t) (differs : t.report ≠ s.report) :
    (i = .reset ∧ t.report = centreReport) ∨
    (t.out.trySend = some ⟨t.report, true⟩ ∧ ∃ v g, i = .pollRpt v g true) := by
  rcases eq_or_ne i .reset with rfl | notReset
  · cases h
    exact .inl ⟨rfl, rfl⟩
  · cases taken : Outputs.taken t.out with
    | none => exact absurd (exec_not_taken h notReset taken) differs
    | some r =>
      obtain ⟨-, rfl⟩ := exec_taken h taken
      exact .inr ⟨(taken_eq_some_iff _ _).1 taken, pollRpt_of_taken h taken⟩

/-- Settles O35: taking the input leaves PreviousReport, so the instruction that ran is what changed it. -/
theorem previousReportHasOneWriter : Obligations.PreviousReportHasOneWriter := by
  intro s t h differs
  obtain ⟨i, dec, ran⟩ := step_next h
  rw [← takeInput_report s] at differs
  rcases exec_report_changed ran differs with ⟨rfl, centred⟩ | ⟨offer, v, g, rfl⟩
  · exact .inl ⟨congrArg Report.x centred, congrArg Report.y centred, dec⟩
  · exact .inr ⟨offer, v, g, dec⟩

/-- Settles O41: an unchanged report is not offered under either answer, and a changed one is offered under both, the
two offers differing only in the answer, which is on neither port. -/
theorem offerIndependentOfReady : Obligations.OfferIndependentOfReady := by
  intro v h s
  rcases eq_or_ne (newReport config v h) s.report with same | differs
  · exact ⟨_, _, exec_pollRpt_unchanged same false, exec_pollRpt_unchanged same true, rfl, rfl⟩
  · exact ⟨_, _, exec_pollRpt_changed differs false, exec_pollRpt_changed differs true, rfl, rfl⟩

end Sys2Proof.Proofs
